-- ==== Sys2Proof/Word.lean ====
section
/-! DEFINITION. The widths of the machine: the 16-bit word of a register, a cell and an address, the 8-bit character
and the 3-bit register number (00_scope.md R4, 10_state.md R10, 20_memory.md R30). -/

namespace Sys2Proof

/-- A register value, a cell value, an address, an instruction word (R4, R10, R30, R55). -/
abbrev Word := BitVec 16

/-- An input character, and one half of a cell as PUTSP sees it (R7, R116). -/
abbrev Byte := BitVec 8

/-- A register number, `0` to `7` for R0 to R7 (R10). -/
abbrev RegIdx := BitVec 3

end Sys2Proof
end

