-- ==== Sys2Proof/Config.lean ====
section
/-! DEFINITION. What is fixed for one machine: the parameters of 00_scope.md R4 (the same in every machine) and R5 (a
record with defaults), and the free values, the environment's answers that no list in the state gives (R8). -/

namespace Sys2Proof

/-- The named parameters of 00_scope.md R5. The source gives them no number (or leaves them to the host), so a claim is
stated for every `Legal` record. -/
structure Config where
  opBR : BitVec 4
  opADD : BitVec 4
  opLD : BitVec 4
  opST : BitVec 4
  opJSR : BitVec 4
  opAND : BitVec 4
  opLDR : BitVec 4
  opSTR : BitVec 4
  opRTI : BitVec 4
  opNOT : BitVec 4
  opLDI : BitVec 4
  opSTI : BitVec 4
  opJMP : BitVec 4
  opRES : BitVec 4
  opLEA : BitVec 4
  opTRAP : BitVec 4
  /-- The value of `cond` that means POSITIVE (R16). -/
  flPos : BitVec 3
  /-- The value of `cond` that means ZERO (R16). -/
  flZro : BitVec 3
  /-- The value of `cond` that means NEGATIVE (R16). -/
  flNeg : BitVec 3
  /-- Address of the keyboard status cell (R33, R42). -/
  kbsrAddr : Word
  /-- Address of the keyboard data cell (R33, R42). -/
  kbdrAddr : Word
  /-- Where the first fetch goes (R26, R163). -/
  pcStart : Word
  /-- The codes IN writes before it reads (R115). -/
  inPrompt : List Word
  /-- The codes HALT writes before it stops (R117). -/
  haltMessage : List Word
  deriving DecidableEq, Repr

namespace Config

/-- The sixteen opcode numbers, in the order of R5. -/
def opcodes (c : Config) : List (BitVec 4) :=
  [c.opBR, c.opADD, c.opLD, c.opST, c.opJSR, c.opAND, c.opLDR, c.opSTR,
   c.opRTI, c.opNOT, c.opLDI, c.opSTI, c.opJMP, c.opRES, c.opLEA, c.opTRAP]

/-- A 3-bit value with exactly one bit set (R16). -/
def oneHot (f : BitVec 3) : Bool := f == 0b001#3 || f == 0b010#3 || f == 0b100#3

/-- The constraints R5 puts on the parameters: sixteen distinct opcode numbers (hence all of 0 to 15), three distinct
one-hot flags, two distinct keyboard addresses. -/
abbrev Legal (c : Config) : Prop :=
  c.opcodes.Nodup ∧
  (oneHot c.flPos = true ∧ oneHot c.flZro = true ∧ oneHot c.flNeg = true) ∧
  (c.flPos ≠ c.flZro ∧ c.flPos ≠ c.flNeg ∧ c.flZro ≠ c.flNeg) ∧
  c.kbsrAddr ≠ c.kbdrAddr

/-- The default column of R5. PRESUMED by the spec from general knowledge but for `pcStart` and `haltMessage`, unsafe
for a claim that names one of these numbers: log 1 to 4. -/
def default : Config where
  opBR := 0
  opADD := 1
  opLD := 2
  opST := 3
  opJSR := 4
  opAND := 5
  opLDR := 6
  opSTR := 7
  opRTI := 8
  opNOT := 9
  opLDI := 10
  opSTI := 11
  opJMP := 12
  opRES := 13
  opLEA := 14
  opTRAP := 15
  flPos := 0b001
  flZro := 0b010
  flNeg := 0b100
  kbsrAddr := 0xFE00
  kbdrAddr := 0xFE02
  pcStart := 0x3000
  inPrompt :=
    [0x45, 0x6E, 0x74, 0x65, 0x72, 0x20, 0x61, 0x20, 0x63, 0x68,
     0x61, 0x72, 0x61, 0x63, 0x74, 0x65, 0x72, 0x3A, 0x20]
  haltMessage := []

/-- The value of the status cell after a poll that found a key (R4, R33). -/
def keyReady : Word := 0x8000

/-! The six trap vectors (R4, R111). -/

def vecGETC : Byte := 0x20
def vecOUT : Byte := 0x21
def vecPUTS : Byte := 0x22
def vecIN : Byte := 0x23
def vecPUTSP : Byte := 0x24
def vecHALT : Byte := 0x25

/-- The vectors that name a service (R111). -/
def serviceVectors : List Byte := [vecGETC, vecOUT, vecPUTS, vecIN, vecPUTSP, vecHALT]

/-! FREE VALUES: the answers of the KbdPoll calls that no list in the state answers. R8 puts no law on them, and no
proof can see them. They are given stretch by stretch, so that it is settled whether an answer `none` or the key 0 ever
comes again, on which the end of PUTS can hang; every sequence of answers is one of these (log 11). -/

/-- The `n`-th stretch of answers: some keys, then one answer more, the key 0 if the flag is set and else `none`. -/
opaque freeKbdStretch : Nat → List Byte × Bool

/-- The number of the first draw, if there is one, from which on every unlisted poll finds a key other than 0. -/
opaque freeKbdKeysFrom : Option Nat

/-- The key the `n`-th draw finds where every unlisted poll finds one. -/
opaque freeKbdKey : Nat → Byte

/-- FREE VALUE: what becomes of the `n`-th CharIn that no list in the state answers: `some b` is the byte that arrives,
`none` says that none ever does (R8, R50). No proof can see it (log 12). -/
opaque freeCharAnswer : Nat → Option Byte

end Config
end Sys2Proof
end

