-- ==== Sys2Proof/Machine/State.lean ====
section
/-! DEFINITION. The state of the machine as plain data, its resetting, and the reasons a step can give no next state
(10_state.md R10 to R29, 00_scope.md R5 to R9). -/

namespace Sys2Proof.Machine

/-- Why a fatal stop happened (R141). -/
inductive FatalCause where
  | illegalOpcode
  | undefinedTrapVector
  deriving DecidableEq, Repr

/-- The run state, as the STATUS interface shows it (R7, R20). -/
inductive RunState where
  /-- Between reset and start: "not yet RUNNING" (R160, R165). -/
  | notStarted
  | running
  /-- The normal end of a run (R117). -/
  | halted
  /-- The fatal stop, with the instruction word that caused it (R142). -/
  | fatal (cause : FatalCause) (info : Word)
  deriving DecidableEq, Repr

/-- The 65536 cells (R22, R30), as the list of the cells that do not read as an unlisted one does, addresses strictly
rising (Machine/Ops.lean: `Memory.wf`). The cell of 16 bits is the only unit of access (log 7). -/
structure Memory where
  cells : List (Nat × Word)
  deriving DecidableEq, Repr

/-- One input transaction with its answer (R7, R9). -/
inductive InputEvent where
  | kbdPoll (answer : Option Byte)
  | charIn (answer : Byte)
  deriving DecidableEq, Repr

/-- The core's dealings with its environment: what is known of the answers to come, and the two traces of R9. -/
structure Env where
  /-- The answers of the coming KbdPoll calls, as far as they are listed (the model's own field, log 11). -/
  kbdAnswers : List (Option Byte)
  /-- The bytes of the coming CharIn calls, as far as they are listed (the model's own field, log 12). -/
  charBytes : List Byte
  /-- How many free values have been drawn (the model's own field, log 13). -/
  draws : Nat
  /-- The codes handed to CharOut, oldest first (R9, R120). -/
  output : List Word
  /-- The KbdPoll and CharIn calls answered, oldest first (R9). -/
  inputs : List InputEvent
  deriving DecidableEq, Repr

/-- The whole state. -/
structure State where
  /-- R0 to R7 (R10). -/
  x : Vector Word 8
  /-- The program counter; inside a step the incremented one (R13). -/
  pc : Word
  /-- The condition-flag register, one of the three flag values (R16). -/
  cond : BitVec 3
  /-- The run state (R20). -/
  run : RunState
  /-- The memory cells, the two keyboard cells among them (R22, R155). -/
  mem : Memory
  /-- Traces, and listed answers (R7 to R9). -/
  env : Env
  /-- The parameters of R5. Not state of the hardware (R24): it stands here so that statements hold for every legal
  configuration, and nothing writes it (log 5). -/
  cfg : Config
  deriving DecidableEq, Repr

namespace State

def setX (s : State) (x : Vector Word 8) : State := { s with x := x }
def setPc (s : State) (pc : Word) : State := { s with pc := pc }
def setCond (s : State) (cond : BitVec 3) : State := { s with cond := cond }
def setRun (s : State) (run : RunState) : State := { s with run := run }
def setMem (s : State) (mem : Memory) : State := { s with mem := mem }
def setEnv (s : State) (env : Env) : State := { s with env := env }

/-- What reset leaves (R160): every register 0x0000 (R25), `pc = PC_START` (R26), `cond = FL_ZRO` (R27), every cell
0x0000 (R29), `run` not yet RUNNING. The traces of the run are empty; no answers are listed (log 11 to 13). -/
def afterReset (c : Config) : State where
  x := Vector.replicate 8 0
  pc := c.pcStart
  cond := c.flZro
  run := .notStarted
  mem := ⟨[]⟩
  env := { kbdAnswers := [], charBytes := [], draws := 0, output := [], inputs := [] }
  cfg := c

/-- The machine as the first step finds it when the host loads nothing: reset, then start (R28, R165). -/
def resetWith (c : Config) : State := (afterReset c).setRun .running

/-- `resetWith` under the default parameters. How a program comes to stand in its memory: log 16. -/
def reset : State := resetWith Config.default

end State

/-- No step of this hardware stops the machine outside its own state: no access, no arithmetic and no encoding faults
(R31, R75, R149), and the fatal stop is a value of `run` that a step moves to (R142). So there is no reason to list,
and nothing raises one: safe (log 14). -/
inductive Fault where
  deriving DecidableEq, Repr

/-- Why a step has no next state. -/
inductive Refusal where
  /-- Raised by `exec` alone, for an instruction without a meaning: none is left, so nothing raises it. Safe. -/
  | notModelled (mnemonic : String)
  /-- Raised by GETC and IN when no byte is listed and the free answer is that none ever arrives: the step never
  completes (R8, R50, U7). `stuck` is the state it waits in, R7 and IN's prompt written. Safe (log 12). -/
  | inputNeverArrives (stuck : State)
  /-- Raised by PUTS exactly when it never ends: no cell is zero, and every poll to come finds a key other than 0 (U5).
  `reached` is the state after some of its reads. Safe (log 15). -/
  | serviceNotEnded (reached : State)
  deriving DecidableEq, Repr

/-- The outcome of a step of this machine. -/
abbrev Result := Host.Outcome State Fault Refusal

end Sys2Proof.Machine
end

