-- ==== Sys2Proof/Machine/Ops.lean ====
section
/-! DEFINITION. The named operations every instruction is written with: registers, memory and its two primitives, the
three input and output transactions, the trap's entry and the fatal stop. -/

namespace Sys2Proof.Machine

/-! ## Registers (10_state.md R10) -/

namespace State

/-- `x[i]`. No register is hard-wired. -/
def reg (s : State) (i : RegIdx) : Word := s.x[i.toNat]'i.isLt

/-- `x[i] <- v`. -/
def setReg (s : State) (i : RegIdx) (v : Word) : State := s.setX (s.x.set i.toNat v i.isLt)

end State

/-! ## Memory as data (10_state.md R22, R29; 20_memory.md R30) -/

namespace Memory

/-- What a cell that no reset, load, store or poll has written reads as: zero (R29). -/
def unlisted : Word := 0

/-- The value of the first cell listed under `a`. -/
def find : List (Nat × Word) → Nat → Word
  | [], _ => unlisted
  | (k, v) :: rest, a => if k = a then v else find rest a

/-- Puts a cell before the first one with a higher address. -/
def insert (a : Nat) (v : Word) : List (Nat × Word) → List (Nat × Word)
  | [] => [(a, v)]
  | (k, w) :: rest => if a < k then (a, v) :: (k, w) :: rest else (k, w) :: insert a v rest

/-- `M[a]`, without side effect. -/
def read (m : Memory) (a : Word) : Word := find m.cells a.toNat

/-- `M[a] <- v`. A cell that comes to hold what an unlisted one reads as is not listed. -/
def write (m : Memory) (a v : Word) : Memory :=
  let others := m.cells.filter (fun cell => cell.1 != a.toNat)
  ⟨if v = unlisted then others else insert a.toNat v others⟩

/-- Addresses strictly rise from `low` on and lie below 65536; no cell holds what an unlisted one reads as. -/
def rising : Nat → List (Nat × Word) → Bool
  | _, [] => true
  | low, (k, v) :: rest => decide (low ≤ k) && decide (k < 65536) && (v != unlisted) && rising (k + 1) rest

/-- The canonical form: equal memories are equal data. -/
def wf (m : Memory) : Bool := rising 0 m.cells

end Memory

/-! ## The transactions of 00_scope.md R7 -/

/-- From draw `n` on every unlisted poll finds a key other than 0 (log 11). -/
def keysForever (n : Nat) : Bool :=
  match Config.freeKbdKeysFrom with
  | some first => decide (first ≤ n)
  | none => false

/-- The free answers of draw `n`: the first, and those that are listed after it. But where keys come for ever, the last
of them is `none` or the key 0. -/
def unlistedPolls (n : Nat) : Option Byte × List (Option Byte) :=
  if keysForever n then (some (if Config.freeKbdKey n = 0#8 then 1#8 else Config.freeKbdKey n), [])
  else
    let last : Option Byte := if (Config.freeKbdStretch n).2 then some 0#8 else none
    match (Config.freeKbdStretch n).1 with
    | [] => (last, [])
    | key :: keys => (some key, keys.map some ++ [last])

/-- `KbdPoll()`: answers at once, `none` or `some b`; a listed answer if there is one, else a free value (R8). -/
def kbdPoll (s : State) : Option Byte × State :=
  match s.env.kbdAnswers with
  | k :: rest => (k, s.setEnv { s.env with kbdAnswers := rest, inputs := s.env.inputs ++ [.kbdPoll k] })
  | [] =>
    let drawn := unlistedPolls s.env.draws
    (drawn.1, s.setEnv { s.env with
      kbdAnswers := drawn.2
      draws := s.env.draws + 1
      inputs := s.env.inputs ++ [.kbdPoll drawn.1] })

/-- `CharIn()`: the byte that arrives, or `none` where none ever does (R8, R50). -/
def charIn (s : State) : Option (Byte × State) :=
  match s.env.charBytes with
  | b :: rest => some (b, s.setEnv { s.env with charBytes := rest, inputs := s.env.inputs ++ [.charIn b] })
  | [] =>
    match Config.freeCharAnswer s.env.draws with
    | some b => some (b, s.setEnv { s.env with draws := s.env.draws + 1, inputs := s.env.inputs ++ [.charIn b] })
    | none => none

/-- `CharOut(v)`: the whole 16-bit code joins the output trace (R120, log 18). -/
def charOut (v : Word) (s : State) : State := s.setEnv { s.env with output := s.env.output ++ [v] }

/-- `CharOut` of each code in order. -/
def charOutAll : List Word → State → State
  | [], s => s
  | v :: rest, s => charOutAll rest (charOut v s)

/-! ## The two memory primitives (20_memory.md R32, R35) -/

/-- What a poll writes into the keyboard cells (R33). -/
def storePoll (k : Option Byte) (s : State) : State :=
  match k with
  | some b =>
    s.setMem ((s.mem.write s.cfg.kbsrAddr Config.keyReady).write s.cfg.kbdrAddr (b.setWidth 16))
  | none => s.setMem (s.mem.write s.cfg.kbsrAddr 0)

/-- `MemRead(a, 1)`: the value, and the state the poll leaves when `a` is the status address. -/
def memRead (a : Word) (s : State) : Word × State :=
  if a = s.cfg.kbsrAddr then
    let polled := kbdPoll s
    let t := storePoll polled.1 polled.2
    (t.mem.read a, t)
  else (s.mem.read a, s)

/-- `MemWrite(a, 1, v)`: a plain store at every address (R35, R36). -/
def memWrite (a v : Word) (s : State) : State := s.setMem (s.mem.write a v)

/-! ## Traps and the fatal stop (44_trap.md R110, 60_exceptions.md R142) -/

/-- What every TRAP does before its vector is looked at: the incremented PC goes to R7, and nothing else is saved
(R110, R145). There is no return to write beside it: no instruction returns from a trap, and nothing is restored
(R147). -/
def trapEntry (s : State) : State := s.setReg 7#3 s.pc

/-- `raise Fatal(cause, info)`: the run state, and nothing else (R142). -/
def raiseFatal (cause : FatalCause) (info : Word) (s : State) : State := s.setRun (.fatal cause info)

/-- The spec's own code numbers of the causes (R141). -/
def FatalCause.code : FatalCause → Nat
  | .illegalOpcode => 1
  | .undefinedTrapVector => 2

/-- Where the instruction stood that a fatal stop names, read from the state the stop leaves (R141, R143). -/
def faultingAddress (s : State) : Word := s.pc - 1

end Sys2Proof.Machine
end

