-- ==== Sys2Proof/Machine/Operands.lean ====
section
/-! DEFINITION. Operand forms: sign extension, immediates and offsets, and the effective addresses built from them
(30_encoding.md R58, R59; 20_memory.md R31). -/

namespace Sys2Proof.Machine

/-- `mask(n)`, the low `n` bits (R58). -/
def lowMask (n : Nat) : Word := BitVec.ofNat 16 (2 ^ n - 1)

/-- `sext_N(v)`: the low `n` bits of `v`, all higher bits set if bit `n - 1` is (00_scope.md section 6.2, R58). -/
def sext (n : Nat) (v : Word) : Word :=
  let f := v &&& lowMask n
  if f.getLsbD (n - 1) then f ||| (0xFFFF#16 <<< n) else f

/-- `sext_N` of an instruction field of `n` bits (R59). -/
def sextField {n : Nat} (f : BitVec n) : Word := sext n (f.setWidth 16)

/-- `zext_8(b)`, as a register or a cell gets it (R120). -/
def zext8 (b : Byte) : Word := b.setWidth 16

/-- `(pc + offset) mod 2^16`, `pc` being the incremented one: BR, JSR, LD, LDI, LEA, ST, STI (R13, R31, R59). -/
def pcRelative {n : Nat} (off : BitVec n) (s : State) : Word := s.pc + sextField off

/-- `(x[base] + offset) mod 2^16`: LDR, STR. -/
def baseRelative (base : RegIdx) (off : BitVec 6) (s : State) : Word := s.reg base + sextField off

end Sys2Proof.Machine
end

