-- ==== Sys2Proof/Machine/Flags.lean ====
section
/-! DEFINITION. The condition flags: how a value sets them, and how BR tests them (10_state.md R16 to R18, 41_control.md
R80). -/

namespace Sys2Proof.Machine

/-- The flag value that matches `v`: ZERO, NEGATIVE by bit 15, else POSITIVE (R17). -/
def condFor (c : Config) (v : Word) : BitVec 3 :=
  if v = 0#16 then c.flZro else if v.getLsbD 15 then c.flNeg else c.flPos

/-- `setcc(i)`: `cond` from the present value of `x[i]`, and nothing else (R17). -/
def setcc (i : RegIdx) (s : State) : State := s.setCond (condFor s.cfg (s.reg i))

/-- The end of every instruction that sets the flags: the result into its register, then `setcc` of it (R18). -/
def writeResult (d : RegIdx) (v : Word) (s : State) : State := setcc d (s.setReg d v)

/-- BR's test: the condition field has a one where `cond` has (R80). -/
def branchTaken (nzp : BitVec 3) (s : State) : Bool := (nzp &&& s.cond) != 0#3

end Sys2Proof.Machine
end

