-- ==== Sys2Proof/Machine/Alu.lean ====
section
/-! DEFINITION. The arithmetic and bitwise instructions (40_alu.md). `pc` has been incremented by the fetch (R51). -/

namespace Sys2Proof.Machine

/-- R70: `x[r0] <- (x[r1] + x[r2]) mod 2^16; setcc(r0)`. -/
def execAdd (d a b : RegIdx) (s : State) : Result :=
  .next (writeResult d (s.reg a + s.reg b) s)

/-- R71: the second operand is `sext_5(ir[4:0])`. -/
def execAddi (d a : RegIdx) (imm : BitVec 5) (s : State) : Result :=
  .next (writeResult d (s.reg a + sextField imm) s)

/-- R72: `x[r0] <- x[r1] & x[r2]; setcc(r0)`. -/
def execAnd (d a b : RegIdx) (s : State) : Result :=
  .next (writeResult d (s.reg a &&& s.reg b) s)

/-- R73: the immediate is sign-extended before the AND. -/
def execAndi (d a : RegIdx) (imm : BitVec 5) (s : State) : Result :=
  .next (writeResult d (s.reg a &&& sextField imm) s)

/-- R74: `x[r0] <- ~x[r1]; setcc(r0)`. -/
def execNot (d a : RegIdx) (s : State) : Result :=
  .next (writeResult d (~~~(s.reg a)) s)

end Sys2Proof.Machine
end

