-- ==== Sys2Proof/Machine/Control.lean ====
section
/-! DEFINITION. The control transfers (41_control.md). `s.pc` is the incremented PC (10_state.md R13). -/

namespace Sys2Proof.Machine

/-- R80: taken when the condition field meets `cond`. -/
def execBr (nzp : BitVec 3) (off : BitVec 9) (s : State) : Result :=
  .next (if branchTaken nzp s then s.setPc (pcRelative off s) else s)

/-- R82: `pc <- x[r1]`. -/
def execJmp (base : RegIdx) (s : State) : Result :=
  .next (s.setPc (s.reg base))

/-- R83: the return address first, then the PC-relative target. -/
def execJsr (off : BitVec 11) (s : State) : Result :=
  .next ((s.setReg 7#3 s.pc).setPc (pcRelative off s))

/-- R84: R7 is written BEFORE the base register is read, so `JSRR R7` goes to the next instruction (D18, log 20). -/
def execJsrr (base : RegIdx) (s : State) : Result :=
  let linked := s.setReg 7#3 s.pc
  .next (linked.setPc (linked.reg base))

end Sys2Proof.Machine
end

