-- ==== Sys2Proof/Machine/Load.lean ====
section
/-! DEFINITION. The loads (42_load.md). Every read is a MemRead, so it polls at the status address (R94). -/

namespace Sys2Proof.Machine

/-- R90. -/
def execLd (d : RegIdx) (off : BitVec 9) (s : State) : Result :=
  let got := memRead (pcRelative off s) s
  .next (writeResult d got.1 got.2)

/-- R91: the pointer, then the data; two reads in this order. -/
def execLdi (d : RegIdx) (off : BitVec 9) (s : State) : Result :=
  let pointer := memRead (pcRelative off s) s
  let got := memRead pointer.1 pointer.2
  .next (writeResult d got.1 got.2)

/-- R92. -/
def execLdr (d base : RegIdx) (off : BitVec 6) (s : State) : Result :=
  let got := memRead (baseRelative base off s) s
  .next (writeResult d got.1 got.2)

/-- R93: the address itself; no memory access, and the flags are set all the same (R19). -/
def execLea (d : RegIdx) (off : BitVec 9) (s : State) : Result :=
  .next (writeResult d (pcRelative off s) s)

end Sys2Proof.Machine
end

