-- ==== Sys2Proof/Syntax.lean ====
section
/-! DEFINITION. The instructions: one constructor for each of the 25 rows of spec/opcode_table.json (30_encoding.md R54,
R55, R64). The fields stand in the order of the word, high bits first, and the bits a format marks `u` (R60) are kept
as the fields `u`, so that a word and its instruction determine each other; what they hold changes no result. -/

namespace Sys2Proof

inductive Instr where
  /-- ADD, register form (R70). -/
  | add (d a : RegIdx) (u : BitVec 2) (b : RegIdx)
  /-- ADD, immediate form (R71). -/
  | addi (d a : RegIdx) (imm : BitVec 5)
  /-- AND, register form (R72). -/
  | and (d a : RegIdx) (u : BitVec 2) (b : RegIdx)
  /-- AND, immediate form (R73). -/
  | andi (d a : RegIdx) (imm : BitVec 5)
  /-- NOT (R74). -/
  | not (d a : RegIdx) (u : BitVec 6)
  /-- BR; `nzp` is the field cond_flag (R80). -/
  | br (nzp : BitVec 3) (off : BitVec 9)
  /-- JMP; RET is `base = 7` (R82). -/
  | jmp (u : BitVec 3) (base : RegIdx) (v : BitVec 6)
  /-- JSR, long_flag = 1 (R83). -/
  | jsr (off : BitVec 11)
  /-- JSRR, long_flag = 0 (R84). -/
  | jsrr (u : BitVec 2) (base : RegIdx) (v : BitVec 6)
  /-- LD (R90). -/
  | ld (d : RegIdx) (off : BitVec 9)
  /-- LDI (R91). -/
  | ldi (d : RegIdx) (off : BitVec 9)
  /-- LDR (R92). -/
  | ldr (d base : RegIdx) (off : BitVec 6)
  /-- LEA (R93). -/
  | lea (d : RegIdx) (off : BitVec 9)
  /-- ST; `r` is the register stored (R100). -/
  | st (r : RegIdx) (off : BitVec 9)
  /-- STI (R101). -/
  | sti (r : RegIdx) (off : BitVec 9)
  /-- STR (R102). -/
  | str (r base : RegIdx) (off : BitVec 6)
  /-- TRAP x20 (R112). -/
  | getc (u : BitVec 4)
  /-- TRAP x21 (R113). -/
  | out (u : BitVec 4)
  /-- TRAP x22 (R114). -/
  | puts (u : BitVec 4)
  /-- TRAP x23, the service IN (R115). -/
  | inp (u : BitVec 4)
  /-- TRAP x24 (R116). -/
  | putsp (u : BitVec 4)
  /-- TRAP x25 (R117). -/
  | halt (u : BitVec 4)
  /-- TRAP with a vector that names no service (R118). -/
  | trapUndefined (u : BitVec 4) (vec : Byte)
  /-- RTI, reserved (R130). -/
  | rti (u : BitVec 12)
  /-- RES, reserved (R131). -/
  | res (u : BitVec 12)
  deriving DecidableEq, Repr

end Sys2Proof
end

