-- ==== Sys2Proof/WellFormed.lean ====
section
/-! DEFINITION. Which terms of `Instr` are instructions of the machine. The fields' widths are in their types; the one
check left is that `trapUndefined` does not carry the vector of a service (30_encoding.md R64, 44_trap.md R111). -/

namespace Sys2Proof

def Instr.wellFormed : Instr → Bool
  | .add _ _ _ _ => true
  | .addi _ _ _ => true
  | .and _ _ _ _ => true
  | .andi _ _ _ => true
  | .not _ _ _ => true
  | .br _ _ => true
  | .jmp _ _ _ => true
  | .jsr _ => true
  | .jsrr _ _ _ => true
  | .ld _ _ => true
  | .ldi _ _ => true
  | .ldr _ _ _ => true
  | .lea _ _ => true
  | .st _ _ => true
  | .sti _ _ => true
  | .str _ _ _ => true
  | .getc _ => true
  | .out _ => true
  | .puts _ => true
  | .inp _ => true
  | .putsp _ => true
  | .halt _ => true
  | .trapUndefined _ vec => !Config.serviceVectors.contains vec
  | .rti _ => true
  | .res _ => true

end Sys2Proof
end

