-- ==== Sys2Proof/Decode.lean ====
section
/-! DEFINITION. The decoder, from a 16-bit word to an instruction, and the encoder after it (30_encoding.md R52 to R60,
R64). Both take the configuration, since the sixteen opcode numbers are parameters (00_scope.md R5). -/

namespace Sys2Proof

/-! The fields of R56, each an unsigned slice of the word. -/

def fieldOpcode (w : Word) : BitVec 4 := w.extractLsb' 12 4
def fieldR0 (w : Word) : RegIdx := w.extractLsb' 9 3
def fieldR1 (w : Word) : RegIdx := w.extractLsb' 6 3
def fieldR2 (w : Word) : RegIdx := w.extractLsb' 0 3
def fieldImmFlag (w : Word) : Bool := w.getLsbD 5
def fieldImm5 (w : Word) : BitVec 5 := w.extractLsb' 0 5
def fieldCond (w : Word) : BitVec 3 := w.extractLsb' 9 3
def fieldOff9 (w : Word) : BitVec 9 := w.extractLsb' 0 9
def fieldLongFlag (w : Word) : Bool := w.getLsbD 11
def fieldOff11 (w : Word) : BitVec 11 := w.extractLsb' 0 11
def fieldOff6 (w : Word) : BitVec 6 := w.extractLsb' 0 6
def fieldTrapVect (w : Word) : Byte := w.extractLsb' 0 8

/-- Why a word is no instruction. -/
inductive DecodeError where
  /-- No OP_ parameter has this number. Impossible in a legal configuration, where the sixteen numbers cover 0 to 15
  (R5, R53). -/
  | unassignedOpcode (op : BitVec 4)
  deriving DecidableEq, Repr

/-- ADD and AND split on imm_flag (R70 to R73). -/
def decodeAdd (w : Word) : Instr :=
  if fieldImmFlag w then .addi (fieldR0 w) (fieldR1 w) (fieldImm5 w)
  else .add (fieldR0 w) (fieldR1 w) (w.extractLsb' 3 2) (fieldR2 w)

/-- See `decodeAdd`; the second register field is three bits here too (R57, C5). -/
def decodeAnd (w : Word) : Instr :=
  if fieldImmFlag w then .andi (fieldR0 w) (fieldR1 w) (fieldImm5 w)
  else .and (fieldR0 w) (fieldR1 w) (w.extractLsb' 3 2) (fieldR2 w)

/-- The JSR opcode splits on long_flag (R83, R84). -/
def decodeJsr (w : Word) : Instr :=
  if fieldLongFlag w then .jsr (fieldOff11 w)
  else .jsrr (w.extractLsb' 9 2) (fieldR1 w) (w.extractLsb' 0 6)

/-- TRAP splits on the vector: the six services first, the undefined vectors last (R64, R111). -/
def decodeTrap (w : Word) : Instr :=
  let u : BitVec 4 := w.extractLsb' 8 4
  let v := fieldTrapVect w
  if v = Config.vecGETC then .getc u
  else if v = Config.vecOUT then .out u
  else if v = Config.vecPUTS then .puts u
  else if v = Config.vecIN then .inp u
  else if v = Config.vecPUTSP then .putsp u
  else if v = Config.vecHALT then .halt u
  else .trapUndefined u v

/-- The decoder: the opcode field alone selects the handler (R52, R53, R54). -/
def decode (c : Config) (w : Word) : Except DecodeError Instr :=
  let op := fieldOpcode w
  if op = c.opBR then .ok (.br (fieldCond w) (fieldOff9 w))
  else if op = c.opADD then .ok (decodeAdd w)
  else if op = c.opLD then .ok (.ld (fieldR0 w) (fieldOff9 w))
  else if op = c.opST then .ok (.st (fieldR0 w) (fieldOff9 w))
  else if op = c.opJSR then .ok (decodeJsr w)
  else if op = c.opAND then .ok (decodeAnd w)
  else if op = c.opLDR then .ok (.ldr (fieldR0 w) (fieldR1 w) (fieldOff6 w))
  else if op = c.opSTR then .ok (.str (fieldR0 w) (fieldR1 w) (fieldOff6 w))
  else if op = c.opRTI then .ok (.rti (w.extractLsb' 0 12))
  else if op = c.opNOT then .ok (.not (fieldR0 w) (fieldR1 w) (w.extractLsb' 0 6))
  else if op = c.opLDI then .ok (.ldi (fieldR0 w) (fieldOff9 w))
  else if op = c.opSTI then .ok (.sti (fieldR0 w) (fieldOff9 w))
  else if op = c.opJMP then .ok (.jmp (w.extractLsb' 9 3) (fieldR1 w) (w.extractLsb' 0 6))
  else if op = c.opRES then .ok (.res (w.extractLsb' 0 12))
  else if op = c.opLEA then .ok (.lea (fieldR0 w) (fieldOff9 w))
  else if op = c.opTRAP then .ok (decodeTrap w)
  else .error (.unassignedOpcode op)

/-- The encoder: the word of an instruction, field by field from the formats of R55. -/
def encode (c : Config) : Instr → Word
  | .add d a u b => c.opADD ++ d ++ a ++ 0b0#1 ++ u ++ b
  | .addi d a imm => c.opADD ++ d ++ a ++ 0b1#1 ++ imm
  | .and d a u b => c.opAND ++ d ++ a ++ 0b0#1 ++ u ++ b
  | .andi d a imm => c.opAND ++ d ++ a ++ 0b1#1 ++ imm
  | .not d a u => c.opNOT ++ d ++ a ++ u
  | .br nzp off => c.opBR ++ nzp ++ off
  | .jmp u base v => c.opJMP ++ u ++ base ++ v
  | .jsr off => c.opJSR ++ 0b1#1 ++ off
  | .jsrr u base v => c.opJSR ++ 0b0#1 ++ u ++ base ++ v
  | .ld d off => c.opLD ++ d ++ off
  | .ldi d off => c.opLDI ++ d ++ off
  | .ldr d base off => c.opLDR ++ d ++ base ++ off
  | .lea d off => c.opLEA ++ d ++ off
  | .st r off => c.opST ++ r ++ off
  | .sti r off => c.opSTI ++ r ++ off
  | .str r base off => c.opSTR ++ r ++ base ++ off
  | .getc u => c.opTRAP ++ u ++ Config.vecGETC
  | .out u => c.opTRAP ++ u ++ Config.vecOUT
  | .puts u => c.opTRAP ++ u ++ Config.vecPUTS
  | .inp u => c.opTRAP ++ u ++ Config.vecIN
  | .putsp u => c.opTRAP ++ u ++ Config.vecPUTSP
  | .halt u => c.opTRAP ++ u ++ Config.vecHALT
  | .trapUndefined u vec => c.opTRAP ++ u ++ vec
  | .rti u => c.opRTI ++ u
  | .res u => c.opRES ++ u

/-- The word whose bits are `w`, of which the table gives `nbits`: one word, one cell (R55). -/
def tableWord (nbits w : Nat) : Word := BitVec.ofNat 16 (w % 2 ^ nbits)

/-- What the decoder reads from a word of spec/opcode_table.json, under the default opcode numbers the table assumes
(R64). -/
def decodeTableWord (nbits w : Nat) : Option Instr :=
  (decode Config.default (tableWord nbits w)).toOption

end Sys2Proof
end

