-- ==== Sys2Proof/Machine/Reserved.lean ====
section
/-! DEFINITION. The reserved opcodes (45_reserved.md): a fatal stop that records the whole instruction word. -/

namespace Sys2Proof.Machine

/-- R130. -/
def execRti (u : BitVec 12) (s : State) : Result :=
  .next (raiseFatal .illegalOpcode (encode s.cfg (.rti u)) s)

/-- R131. -/
def execRes (u : BitVec 12) (s : State) : Result :=
  .next (raiseFatal .illegalOpcode (encode s.cfg (.res u)) s)

end Sys2Proof.Machine
end

