-- ==== Sys2Proof/Machine/Store.lean ====
section
/-! DEFINITION. The stores (43_store.md): one cell, no register, no flag (R103). -/

namespace Sys2Proof.Machine

/-- R100. -/
def execSt (r : RegIdx) (off : BitVec 9) (s : State) : Result :=
  .next (memWrite (pcRelative off s) (s.reg r) s)

/-- R101: the pointer is read by a MemRead, then the store goes where it points. -/
def execSti (r : RegIdx) (off : BitVec 9) (s : State) : Result :=
  let pointer := memRead (pcRelative off s) s
  .next (memWrite pointer.1 (s.reg r) pointer.2)

/-- R102. -/
def execStr (r base : RegIdx) (off : BitVec 6) (s : State) : Result :=
  .next (memWrite (baseRelative base off s) (s.reg r) s)

end Sys2Proof.Machine
end

