-- ==== Sys2Proof/Machine/Trap.lean ====
section
/-! DEFINITION. TRAP and its services (44_trap.md). Every one begins with `trapEntry` (R110), is performed whole in this
step, and leaves `pc` alone (R119). -/

namespace Sys2Proof.Machine

/-- The reads of one pass over the whole memory, after which the address is the first one again. -/
def passReads : Nat := 65536

/-- The loop of R114: one MemRead a turn, up to and including the first zero cell. -/
def putsLoop : Nat → Word → State → Result
  | 0, _, s => .refused (.serviceNotEnded s)
  | reads + 1, a, s =>
    let got := memRead a s
    if got.1 = 0#16 then .next got.2 else putsLoop reads (a + 1) (charOut got.1 got.2)

/-- The loop of R114, pass after pass, for at most the given number of passes. -/
def putsPasses : Nat → Word → State → Result
  | 0, _, s => .refused (.serviceNotEnded s)
  | passes + 1, a, s =>
    match putsLoop passReads a s with
    | .refused (.serviceNotEnded reached) => putsPasses passes a reached
    | ended => ended

/-- Passes enough for a PUTS that ends: a pass meets the status cell once, so there is one for each listed poll answer
and each of the next draw, among which a `none` or a key 0 comes if one ever does, and one more, in which a zero cell
is met if there is one (log 15). -/
def putsBound (s : State) : Nat := s.env.kbdAnswers.length + (unlistedPolls s.env.draws).2.length + 2

/-- The loop of R116: the low byte, then the high byte of each cell, up to the first zero byte. -/
def putspLoop : Nat → Word → State → Result
  | 0, _, s => .refused (.serviceNotEnded s)
  | reads + 1, a, s =>
    let got := memRead a s
    let lo : Byte := got.1.extractLsb' 0 8
    let hi : Byte := got.1.extractLsb' 8 8
    if lo = 0#8 then .next got.2
    else if hi = 0#8 then .next (charOut (zext8 lo) got.2)
    else putspLoop reads (a + 1) (charOut (zext8 hi) (charOut (zext8 lo) got.2))

/-- R112: one byte, zero-extended, into R0, without echo; the flags from R0. -/
def execGetc (s : State) : Result :=
  let entered := trapEntry s
  match charIn entered with
  | some (b, t) => .next (writeResult 0#3 (zext8 b) t)
  | none => .refused (.inputNeverArrives entered)

/-- R113: all 16 bits of R0. -/
def execOut (s : State) : Result :=
  .next (charOut (s.reg 0#3) (trapEntry s))

/-- R114: the string of one character a cell at the address in R0, which is not changed (log 19).
Refused exactly when the loop never ends. -/
def execPuts (s : State) : Result :=
  putsPasses (putsBound s) (s.reg 0#3) (trapEntry s)

/-- R115: the whole prompt, the read, the echo, the register, the flags. -/
def execInp (s : State) : Result :=
  let prompted := charOutAll s.cfg.inPrompt (trapEntry s)
  match charIn prompted with
  | some (b, t) => .next (writeResult 0#3 (zext8 b) (charOut (zext8 b) t))
  | none => .refused (.inputNeverArrives prompted)

/-- R116: the string of two characters a cell at the address in R0, which is not changed. It ends within one pass at
the latest: the status cell reads as 0x8000 or 0x0000, each with a zero low byte. -/
def execPutsp (s : State) : Result :=
  putspLoop passReads (s.reg 0#3) (trapEntry s)

/-- R117: the message, then `run <- HALTED`. -/
def execHalt (s : State) : Result :=
  .next ((charOutAll s.cfg.haltMessage (trapEntry s)).setRun .halted)

/-- R118: R7 has been written when the fatal stop comes; `info` is the whole instruction word. -/
def execTrapUndefined (u : BitVec 4) (vec : Byte) (s : State) : Result :=
  .next (raiseFatal .undefinedTrapVector (encode s.cfg (.trapUndefined u vec)) (trapEntry s))

end Sys2Proof.Machine
end

