-- ==== Sys2Proof/Machine/Dispatch.lean ====
section
/-! DEFINITION. One arm per instruction (30_encoding.md R53). -/

namespace Sys2Proof.Machine

def exec (i : Instr) (s : State) : Host.Outcome State Fault Refusal :=
  match i with
  | .add d a _ b => Sys2Proof.Machine.execAdd d a b s
  | .addi d a imm => Sys2Proof.Machine.execAddi d a imm s
  | .and d a _ b => Sys2Proof.Machine.execAnd d a b s
  | .andi d a imm => Sys2Proof.Machine.execAndi d a imm s
  | .not d a _ => Sys2Proof.Machine.execNot d a s
  | .br nzp off => Sys2Proof.Machine.execBr nzp off s
  | .jmp _ base _ => Sys2Proof.Machine.execJmp base s
  | .jsr off => Sys2Proof.Machine.execJsr off s
  | .jsrr _ base _ => Sys2Proof.Machine.execJsrr base s
  | .ld d off => Sys2Proof.Machine.execLd d off s
  | .ldi d off => Sys2Proof.Machine.execLdi d off s
  | .ldr d base off => Sys2Proof.Machine.execLdr d base off s
  | .lea d off => Sys2Proof.Machine.execLea d off s
  | .st r off => Sys2Proof.Machine.execSt r off s
  | .sti r off => Sys2Proof.Machine.execSti r off s
  | .str r base off => Sys2Proof.Machine.execStr r base off s
  | .getc _ => Sys2Proof.Machine.execGetc s
  | .out _ => Sys2Proof.Machine.execOut s
  | .puts _ => Sys2Proof.Machine.execPuts s
  | .inp _ => Sys2Proof.Machine.execInp s
  | .putsp _ => Sys2Proof.Machine.execPutsp s
  | .halt _ => Sys2Proof.Machine.execHalt s
  | .trapUndefined u vec => Sys2Proof.Machine.execTrapUndefined u vec s
  | .rti u => Sys2Proof.Machine.execRti u s
  | .res u => Sys2Proof.Machine.execRes u s

end Sys2Proof.Machine
end

