-- ==== Sys2Proof/Machine/Fetch.lean ====
section
/-! DEFINITION. What surrounds the instruction in a step: the fetch, the word that has no handler, and placing a word
where the next fetch finds it (30_encoding.md R51, R53). -/

namespace Sys2Proof.Machine

/-- The fetch: `ir <- MemRead(pc, 1)`, with its poll at the status address (R38), then `pc <- (pc + 1) mod 2^16`. -/
def fetch (s : State) : Word × State :=
  let got := memRead s.pc s
  (got.1, got.2.setPc (got.2.pc + 1))

/-- A word whose opcode number no OP_ parameter has: "an opcode value with no defined handler is a fatal condition"
(R53). It exists in no legal configuration (log 17). -/
def noHandler (ir : Word) (s : State) : Result := .next (raiseFatal .illegalOpcode ir s)

/-- The cell the next step is to fetch from when a given word must be found there: the present `pc`, but for the status
cell, whose every read is rewritten by its poll (R33): there the cell after it (log 16). -/
def fetchableAddress (s : State) : Word := if s.pc = s.cfg.kbsrAddr then s.pc + 1 else s.pc

/-- The state whose next step fetches `w` and runs it: the core RUNNING, `w` in the cell at `pc`. -/
def placeWord (s : State) (w : Word) : State :=
  ((s.setPc (fetchableAddress s)).setMem (s.mem.write (fetchableAddress s) w)).setRun .running

end Sys2Proof.Machine
end

