-- ==== Sys2Proof/Machine/Step.lean ====
section
/-! DEFINITION. One step (30_encoding.md R50): fetch, decode, execute. -/

namespace Sys2Proof.Machine

/-- A step is taken only while RUNNING. In any other run state the core does nothing, and the state is the answer
(R20, R165, log 10). -/
def step (s : State) : Host.Outcome State Fault Refusal :=
  match s.run with
  | .running =>
    let fetched := fetch s
    match decode s.cfg fetched.1 with
    | .ok i => exec i fetched.2
    | .error _ => noHandler fetched.1 fetched.2
  | .notStarted => .next s
  | .halted => .next s
  | .fatal _ _ => .next s

/-- `s` with the word of the table's row, `w`, where `step` fetches its next instruction. -/
def State.withFetchWord (s : State) (nbits w : Nat) : State := placeWord s (tableWord nbits w)

end Sys2Proof.Machine
end

