-- ==== Sys2Proof/Machine/Asm.lean ====
section
/-! DEFINITION. The writing of programs (30_encoding.md R62, R63): the spec's own shorthand for the words of a program,
with no force on the hardware. -/

namespace Sys2Proof.Machine

/-- The instruction with its ignored bits at their customary values: zeros, but ones in NOT (R60). -/
def customary : Instr → Instr
  | .add d a _ b => .add d a 0 b
  | .addi d a imm => .addi d a imm
  | .and d a _ b => .and d a 0 b
  | .andi d a imm => .andi d a imm
  | .not d a _ => .not d a 0b111111
  | .br nzp off => .br nzp off
  | .jmp _ base _ => .jmp 0 base 0
  | .jsr off => .jsr off
  | .jsrr _ base _ => .jsrr 0 base 0
  | .ld d off => .ld d off
  | .ldi d off => .ldi d off
  | .ldr d base off => .ldr d base off
  | .lea d off => .lea d off
  | .st r off => .st r off
  | .sti r off => .sti r off
  | .str r base off => .str r base off
  | .getc _ => .getc 0
  | .out _ => .out 0
  | .puts _ => .puts 0
  | .inp _ => .inp 0
  | .putsp _ => .putsp 0
  | .halt _ => .halt 0
  | .trapUndefined _ vec => .trapUndefined 0 vec
  | .rti _ => .rti 0
  | .res _ => .res 0

/-- The condition field of BR with the letters present (R62). -/
def brLetters (n z p : Bool) : BitVec 3 := BitVec.ofBool n ++ BitVec.ofBool z ++ BitVec.ofBool p

/-- The offset field of `n` bits that reaches `label` from the instruction at `at`, if its range does (R62). -/
def labelOffset (n : Nat) (label here : Word) : Option (BitVec n) :=
  let off := label - (here + 1)
  if sextField (off.setWidth n) = off then some (off.setWidth n) else none

/-- A line of a program: an instruction, a pseudo-instruction of R63 or a directive of R62 that fills cells. -/
inductive AsmLine where
  | instr (i : Instr)
  | ret
  | nop
  | fill (w : Word)
  | blkw (n : Nat)
  | stringz (text : String)
  deriving DecidableEq, Repr

/-- The cells a line fills. -/
def AsmLine.cells (c : Config) : AsmLine → List Word
  | .instr i => [encode c (customary i)]
  | .ret => [encode c (.jmp 0 7 0)]
  | .nop => [encode c (.br 0 0)]
  | .fill w => [w]
  | .blkw n => List.replicate n 0
  | .stringz text => text.toList.map (fun ch => BitVec.ofNat 16 ch.toNat) ++ [0]

end Sys2Proof.Machine
end

