-- ==== Sys2Proof/Machine/Launch.lean ====
section
/-! DEFINITION. The host's part of a run before its first step: reset, load, PC_START, start, in this order
(70_reset_and_hazards.md R160 to R167). -/

namespace Sys2Proof.Machine

/-- Images the spec gives no meaning to (R166, D25). -/
inductive LaunchRefusal where
  | oddLength
  | noOriginWord
  deriving DecidableEq, Repr

/-- `word(i)` of R166: of each pair the first byte is bits 15:8 (R39). `none` when a byte is left over. -/
def imageWords : List Byte → Option (List Word)
  | [] => some []
  | [_] => none
  | hi :: lo :: rest => (imageWords rest).map (fun words => (hi ++ lo) :: words)

/-- An image as its origin and its payload. -/
def parseImage (bytes : List Byte) : Except LaunchRefusal (Word × List Word) :=
  match imageWords bytes with
  | none => .error .oddLength
  | some [] => .error .noOriginWord
  | some (origin :: payload) => .ok (origin, payload)

/-- The payload into consecutive cells from `a` on, modulo 2^16. Not a MemWrite of the core, and no poll (R166). -/
def loadCells (a : Word) : List Word → Memory → Memory
  | [], m => m
  | w :: rest, m => loadCells (a + 1) rest (m.write a w)

/-- Images in the order given, a later one over an earlier one (R167); the origins are kept for R163. -/
def loadImages : List (List Byte) → Memory → Except LaunchRefusal (List Word × Memory)
  | [], m => .ok ([], m)
  | bytes :: rest, m =>
    match parseImage bytes with
    | .error e => .error e
    | .ok (origin, payload) =>
      match loadImages rest (loadCells origin payload m) with
      | .error e => .error e
      | .ok (origins, loaded) => .ok (origin :: origins, loaded)

/-- PC_START (R163): the parameter's value when nothing is loaded, the origin when the images share one, the host's
`choice` when they do not. DEDUCED for several images of one origin (log 22). -/
def pcStartFor (c : Config) (choice : Word) : List Word → Word
  | [] => c.pcStart
  | origin :: others => if others.all (· == origin) then origin else choice

/-- The host fixes PC_START after the load (R162 step 3). -/
def hostSetPcStart (p : Word) (s : State) : State :=
  { s with pc := p, cfg := { s.cfg with pcStart := p } }

/-- `run <- RUNNING` (R165). -/
def hostStart (s : State) : State := s.setRun .running

/-- The whole bring-up of R162, up to the state the first step finds. -/
def launch (c : Config) (choice : Word) (images : List (List Byte)) : Except LaunchRefusal State :=
  let fresh := State.afterReset c
  match loadImages images fresh.mem with
  | .error e => .error e
  | .ok (origins, loaded) =>
    .ok (hostStart (hostSetPcStart (pcStartFor c choice origins) (fresh.setMem loaded)))

end Sys2Proof.Machine
end

