-- ==== Sys2Proof/Safety.lean ====
section
/-! DEFINITION. The terms the claims use: good states and ends of a run, what a step keeps, and what the spec's tables
say each instruction writes (10_state.md R12, R18; 20_memory.md R37). -/

namespace Sys2Proof.Machine

/-! ## States and runs -/

/-- `cond` is one of the three flag values (R16). -/
abbrev CondOneHot (s : State) : Prop := s.cond = s.cfg.flPos ∨ s.cond = s.cfg.flZro ∨ s.cond = s.cfg.flNeg

/-- The invariant of every run: a legal configuration, exactly one flag, memory in its canonical form. -/
structure Inv (s : State) : Prop where
  legal : s.cfg.Legal
  oneHot : CondOneHot s
  memWf : s.mem.wf = true

/-- A run that has come to its normal end (R170). -/
abbrev EndedNormally (s : State) : Prop := s.run = .halted

/-- A run that has gone wrong: never a correct final state (R142). -/
abbrev EndedInFault (s : State) : Prop := ∃ cause info, s.run = .fatal cause info

/-- `t` comes from `s` by some number of steps, all with a next state. -/
inductive Reaches : State → State → Prop
  | here (s : State) : Reaches s s
  | more {s t u : State} (h : step s = .next t) (rest : Reaches t u) : Reaches s u

/-! ## What a step keeps -/

/-- Every general register not in `ds` reads as before. -/
abbrev RegsKeptBut (ds : List RegIdx) (s t : State) : Prop := ∀ r, r ∉ ds → t.reg r = s.reg r

/-- Every cell not in `written` reads as before. -/
abbrev CellsKeptBut (written : List Word) (s t : State) : Prop := ∀ a, a ∉ written → t.mem.read a = s.mem.read a

/-- Every cell reads as before. -/
abbrev CellsKept (s t : State) : Prop := ∀ a, t.mem.read a = s.mem.read a

/-- The run state and the configuration are as before. -/
abbrev ControlKept (s t : State) : Prop := t.run = s.run ∧ t.cfg = s.cfg

/-! ## The spec's tables of effects -/

/-- The general registers an instruction writes (the table of R12). -/
def writtenRegs : Instr → List RegIdx
  | .add d _ _ _ => [d]
  | .addi d _ _ => [d]
  | .and d _ _ _ => [d]
  | .andi d _ _ => [d]
  | .not d _ _ => [d]
  | .br _ _ => []
  | .jmp _ _ _ => []
  | .jsr _ => [7]
  | .jsrr _ _ _ => [7]
  | .ld d _ => [d]
  | .ldi d _ => [d]
  | .ldr d _ _ => [d]
  | .lea d _ => [d]
  | .st _ _ => []
  | .sti _ _ => []
  | .str _ _ _ => []
  | .getc _ => [0, 7]
  | .out _ => [7]
  | .puts _ => [7]
  | .inp _ => [0, 7]
  | .putsp _ => [7]
  | .halt _ => [7]
  | .trapUndefined _ _ => [7]
  | .rti _ => []
  | .res _ => []

/-- The register the flags are recomputed from, for the instructions that recompute them (R18, C1). -/
def flagSource : Instr → Option RegIdx
  | .add d _ _ _ => some d
  | .addi d _ _ => some d
  | .and d _ _ _ => some d
  | .andi d _ _ => some d
  | .not d _ _ => some d
  | .br _ _ => none
  | .jmp _ _ _ => none
  | .jsr _ => none
  | .jsrr _ _ _ => none
  | .ld d _ => some d
  | .ldi d _ => some d
  | .ldr d _ _ => some d
  | .lea d _ => some d
  | .st _ _ => none
  | .sti _ _ => none
  | .str _ _ _ => none
  | .getc _ => some 0
  | .out _ => none
  | .puts _ => none
  | .inp _ => some 0
  | .putsp _ => none
  | .halt _ => none
  | .trapUndefined _ _ => none
  | .rti _ => none
  | .res _ => none

/-- The cell a store stores to, computed as its meaning computes it (R37, R100 to R102). -/
def storeTarget (i : Instr) (s : State) : Option Word :=
  match i with
  | .add _ _ _ _ => none
  | .addi _ _ _ => none
  | .and _ _ _ _ => none
  | .andi _ _ _ => none
  | .not _ _ _ => none
  | .br _ _ => none
  | .jmp _ _ _ => none
  | .jsr _ => none
  | .jsrr _ _ _ => none
  | .ld _ _ => none
  | .ldi _ _ => none
  | .ldr _ _ _ => none
  | .lea _ _ => none
  | .st _ off => some (pcRelative off s)
  | .sti _ off => some (memRead (pcRelative off s) s).1
  | .str _ base off => some (baseRelative base off s)
  | .getc _ => none
  | .out _ => none
  | .puts _ => none
  | .inp _ => none
  | .putsp _ => none
  | .halt _ => none
  | .trapUndefined _ _ => none
  | .rti _ => none
  | .res _ => none

/-- BR, JMP, JSR, JSRR: the instructions that write `pc` after the fetch (R14). -/
def writesPc : Instr → Bool
  | .add _ _ _ _ => false
  | .addi _ _ _ => false
  | .and _ _ _ _ => false
  | .andi _ _ _ => false
  | .not _ _ _ => false
  | .br _ _ => true
  | .jmp _ _ _ => true
  | .jsr _ => true
  | .jsrr _ _ _ => true
  | .ld _ _ => false
  | .ldi _ _ => false
  | .ldr _ _ _ => false
  | .lea _ _ => false
  | .st _ _ => false
  | .sti _ _ => false
  | .str _ _ _ => false
  | .getc _ => false
  | .out _ => false
  | .puts _ => false
  | .inp _ => false
  | .putsp _ => false
  | .halt _ => false
  | .trapUndefined _ _ => false
  | .rti _ => false
  | .res _ => false

/-- The TRAP services and the TRAP with an undefined vector (R110). -/
def isTrap : Instr → Bool
  | .add _ _ _ _ => false
  | .addi _ _ _ => false
  | .and _ _ _ _ => false
  | .andi _ _ _ => false
  | .not _ _ _ => false
  | .br _ _ => false
  | .jmp _ _ _ => false
  | .jsr _ => false
  | .jsrr _ _ _ => false
  | .ld _ _ => false
  | .ldi _ _ => false
  | .ldr _ _ _ => false
  | .lea _ _ => false
  | .st _ _ => false
  | .sti _ _ => false
  | .str _ _ _ => false
  | .getc _ => true
  | .out _ => true
  | .puts _ => true
  | .inp _ => true
  | .putsp _ => true
  | .halt _ => true
  | .trapUndefined _ _ => true
  | .rti _ => false
  | .res _ => false

/-! ## The string services as relations, and the strings they walk over -/

/-- The loop of R114 ends in `t` after `reads` reads, begun at `a` in `s`. -/
inductive PutsWalk : Nat → Word → State → State → Prop
  | stop {a : Word} {s : State} (h : (memRead a s).1 = 0#16) : PutsWalk 1 a s (memRead a s).2
  | more {reads : Nat} {a : Word} {s t : State} (h : (memRead a s).1 ≠ 0#16)
      (rest : PutsWalk reads (a + 1) (charOut (memRead a s).1 (memRead a s).2) t) : PutsWalk (reads + 1) a s t

/-- The loop of R116 ends in `t` after `reads` reads, begun at `a` in `s`. -/
inductive PutspWalk : Nat → Word → State → State → Prop
  | stopLow {a : Word} {s : State} (h : (memRead a s).1.extractLsb' 0 8 = 0#8) : PutspWalk 1 a s (memRead a s).2
  | stopHigh {a : Word} {s : State} (hlo : (memRead a s).1.extractLsb' 0 8 ≠ 0#8)
      (hhi : (memRead a s).1.extractLsb' 8 8 = 0#8) :
      PutspWalk 1 a s (charOut (((memRead a s).1.extractLsb' 0 8).setWidth 16) (memRead a s).2)
  | more {reads : Nat} {a : Word} {s t : State} (hlo : (memRead a s).1.extractLsb' 0 8 ≠ 0#8)
      (hhi : (memRead a s).1.extractLsb' 8 8 ≠ 0#8)
      (rest : PutspWalk reads (a + 1)
        (charOut (((memRead a s).1.extractLsb' 8 8).setWidth 16)
          (charOut (((memRead a s).1.extractLsb' 0 8).setWidth 16) (memRead a s).2)) t) :
      PutspWalk (reads + 1) a s t

/-- Memory holds `cells` in consecutive cells from `a` on, modulo 2^16, none of them the keyboard status cell. -/
def CellsAt (s : State) (a : Word) : List Word → Prop
  | [] => True
  | c :: rest => a ≠ s.cfg.kbsrAddr ∧ s.mem.read a = c ∧ CellsAt s (a + 1) rest

/-- The byte stream PUTSP sees: of each cell the low byte, then the high byte (R39, R116). -/
def packedBytes : List Word → List Byte
  | [] => []
  | c :: rest => c.extractLsb' 0 8 :: c.extractLsb' 8 8 :: packedBytes rest

/-! ## The opcode table and images as data -/

/-- A row of spec/opcode_table.json: a word `w` matches it when `w &&& mask = pattern` (R64). -/
structure TableRow where
  mnemonic : String
  mask : Word
  pattern : Word
  deriving DecidableEq, Repr

/-- The rows in the table's order, in which the six services stand before TRAP_UNDEFINED (R64). -/
def opcodeTable : List TableRow :=
  [⟨"ADD", 0xF020, 0x1000⟩, ⟨"ADDI", 0xF020, 0x1020⟩, ⟨"AND", 0xF020, 0x5000⟩, ⟨"ANDI", 0xF020, 0x5020⟩, ⟨"NOT", 0xF000, 0x9000⟩] ++
  [⟨"BR", 0xF000, 0x0000⟩, ⟨"JMP", 0xF000, 0xC000⟩, ⟨"JSR", 0xF800, 0x4800⟩, ⟨"JSRR", 0xF800, 0x4000⟩, ⟨"LD", 0xF000, 0x2000⟩] ++
  [⟨"LDI", 0xF000, 0xA000⟩, ⟨"LDR", 0xF000, 0x6000⟩, ⟨"LEA", 0xF000, 0xE000⟩, ⟨"ST", 0xF000, 0x3000⟩, ⟨"STI", 0xF000, 0xB000⟩] ++
  [⟨"STR", 0xF000, 0x7000⟩, ⟨"GETC", 0xF0FF, 0xF020⟩, ⟨"OUT", 0xF0FF, 0xF021⟩, ⟨"PUTS", 0xF0FF, 0xF022⟩, ⟨"IN", 0xF0FF, 0xF023⟩] ++
  [⟨"PUTSP", 0xF0FF, 0xF024⟩, ⟨"HALT", 0xF0FF, 0xF025⟩, ⟨"TRAP_UNDEFINED", 0xF000, 0xF000⟩, ⟨"RTI", 0xF000, 0x8000⟩, ⟨"RES", 0xF000, 0xD000⟩]

/-- The row an instruction stands for (the map of LAWS.json). -/
def tableRow : Instr → TableRow
  | .add _ _ _ _ => ⟨"ADD", 0xF020, 0x1000⟩
  | .addi _ _ _ => ⟨"ADDI", 0xF020, 0x1020⟩
  | .and _ _ _ _ => ⟨"AND", 0xF020, 0x5000⟩
  | .andi _ _ _ => ⟨"ANDI", 0xF020, 0x5020⟩
  | .not _ _ _ => ⟨"NOT", 0xF000, 0x9000⟩
  | .br _ _ => ⟨"BR", 0xF000, 0x0000⟩
  | .jmp _ _ _ => ⟨"JMP", 0xF000, 0xC000⟩
  | .jsr _ => ⟨"JSR", 0xF800, 0x4800⟩
  | .jsrr _ _ _ => ⟨"JSRR", 0xF800, 0x4000⟩
  | .ld _ _ => ⟨"LD", 0xF000, 0x2000⟩
  | .ldi _ _ => ⟨"LDI", 0xF000, 0xA000⟩
  | .ldr _ _ _ => ⟨"LDR", 0xF000, 0x6000⟩
  | .lea _ _ => ⟨"LEA", 0xF000, 0xE000⟩
  | .st _ _ => ⟨"ST", 0xF000, 0x3000⟩
  | .sti _ _ => ⟨"STI", 0xF000, 0xB000⟩
  | .str _ _ _ => ⟨"STR", 0xF000, 0x7000⟩
  | .getc _ => ⟨"GETC", 0xF0FF, 0xF020⟩
  | .out _ => ⟨"OUT", 0xF0FF, 0xF021⟩
  | .puts _ => ⟨"PUTS", 0xF0FF, 0xF022⟩
  | .inp _ => ⟨"IN", 0xF0FF, 0xF023⟩
  | .putsp _ => ⟨"PUTSP", 0xF0FF, 0xF024⟩
  | .halt _ => ⟨"HALT", 0xF0FF, 0xF025⟩
  | .trapUndefined _ _ => ⟨"TRAP_UNDEFINED", 0xF000, 0xF000⟩
  | .rti _ => ⟨"RTI", 0xF000, 0x8000⟩
  | .res _ => ⟨"RES", 0xF000, 0xD000⟩

/-- The bytes of an image whose words, origin first, are given: big-endian (R39, R166). -/
def imageBytes : List Word → List Byte
  | [] => []
  | w :: rest => w.extractLsb' 8 8 :: w.extractLsb' 0 8 :: imageBytes rest

end Sys2Proof.Machine
end

