-- ==== Sys2Proof/Certificates/Slice0/Obligations.lean ====
section
/-! DEFINITION. The statements for the provers. Each says, of every state and every legal configuration, what a rule of
spec/ says; the docstring names it. -/

open Sys2Proof Sys2Proof.Machine

/-! ## Encoding -/

/-- 30_encoding.md R55, R56, R64: a well-formed instruction is read back from its word, every field at every value.
That the ignored bits are fields of the instruction is the model's choice (log 23). -/
def Obligations.DecodeOfEncodeIsTheInstruction : Prop :=
  ∀ (c : Config) (i : Instr), c.Legal → i.wellFormed = true → decode c (encode c i) = .ok i

/-- 30_encoding.md R53, R54, R55: every 16-bit word decodes, to a well-formed instruction that encodes back to that
word. That words which differ in ignored bits alone decode to different terms, so that a word and its instruction
determine each other, is the model's choice (log 23); R60 calls them the same instruction. -/
def Obligations.EveryWordDecodesAndEncodesBack : Prop :=
  ∀ (c : Config) (w : Word), c.Legal → ∃ i, decode c w = .ok i ∧ i.wellFormed = true ∧ encode c i = w

/-- Words of 95_test_vectors.md, one a family, decode to what the notation beside them says (default opcode numbers:
log 1; ignored bits as fields: log 23). -/
def Obligations.ManualWordsDecode : Prop :=
  decode Config.default 0x1401 = .ok (.add 2 0 0 1) ∧
  decode Config.default 0x12B0 = .ok (.addi 1 2 0b10000) ∧
  decode Config.default 0x09FE = .ok (.br 0b100 0b111111110) ∧
  decode Config.default 0x41C0 = .ok (.jsrr 0 7 0) ∧
  decode Config.default 0x629F = .ok (.ldr 1 2 31) ∧
  decode Config.default 0xB202 = .ok (.sti 1 2) ∧
  decode Config.default 0xFA20 = .ok (.getc 0b1010) ∧
  decode Config.default 0xF026 = .ok (.trapUndefined 0 0x26) ∧
  decode Config.default 0xDFFF = .ok (.res 0xFFF)

/-- 30_encoding.md R64 and spec/opcode_table.json, under the table's own (default) opcode numbers, log 1: a word
decodes to the first row, in the table's order, whose mask and match it meets. -/
def Obligations.DecoderFollowsTheOpcodeTable : Prop :=
  ∀ w : Word, ∃ i, decode Config.default w = .ok i ∧
    opcodeTable.find? (fun row => w &&& row.mask == row.pattern) = some (tableRow i)

/-- 30_encoding.md R60 (the spec's own decision D8): the ignored bits change no effect. Two instructions that differ
in them alone do the same, but that the fatal stops record the whole word. -/
def Obligations.IgnoredBitsChangeNoEffect : Prop :=
  ∀ (i j : Instr) (s : State), customary i = customary j →
    exec i s = exec j s ∨
    ∃ (t : State) (cause : FatalCause), exec i s = .next (t.setRun (.fatal cause (encode s.cfg i))) ∧
      exec j s = .next (t.setRun (.fatal cause (encode s.cfg j)))

/-- 30_encoding.md R58: `sext_N` is the two's-complement widening of an N-bit field, and idempotent. -/
def Obligations.SignExtensionWidensTwosComplement : Prop :=
  ∀ (n : Nat) (x : Word), 1 ≤ n → n ≤ 16 →
    sext n (x &&& lowMask n) = (x.setWidth n).signExtend 16 ∧
    sext n (sext n (x &&& lowMask n)) = sext n (x &&& lowMask n)

/-! ## Reset, start and load -/

/-- 10_state.md R27, R28, R29, 70_reset_and_hazards.md R165: before the first fetch the flags are ZERO, the core is
RUNNING and every cell is 0x0000. That this state is reset followed by start is log 9, and that a step before the
start answers the unchanged state is log 10: the model's choices. -/
def Obligations.ResetFlagsRunAndMemory : Prop :=
  State.reset.cond = State.reset.cfg.flZro ∧ State.reset.run = .running ∧ (∀ a, State.reset.mem.read a = 0) ∧
  ∀ (c : Config), (State.resetWith c).cond = c.flZro ∧ (State.resetWith c).run = .running ∧
    (State.resetWith c).cfg = c ∧ (∀ a, (State.resetWith c).mem.read a = 0) ∧
    (State.resetWith c) = hostStart (State.afterReset c) ∧ step (State.afterReset c) = .next (State.afterReset c)

/-- 10_state.md R25, R26, the spec's own decisions D6 and D9 (log 4, 6): every general register is 0x0000 and `pc` is
PC_START, by default 0x3000. That the traces (R9) are empty at reset is the model's choice (log 13). -/
def Obligations.ResetRegistersAndProgramCounter : Prop :=
  State.reset.pc = 0x3000 ∧
  ∀ (c : Config), (∀ r, (State.resetWith c).reg r = 0) ∧ (State.resetWith c).pc = c.pcStart ∧
    (State.resetWith c).env.output = [] ∧ (State.resetWith c).env.inputs = []

/-- 10_state.md R16, R27: the machine after reset meets the invariant (log 7 for canonical memory, log 9 for the
start in `State.reset`). -/
def Obligations.ResetMeetsTheInvariant : Prop :=
  Inv State.reset ∧ ∀ c : Config, c.Legal → Inv (State.resetWith c) ∧ Inv (State.afterReset c)

/-- 70_reset_and_hazards.md R166 (decision D16), R163, R165: one image, given as big-endian bytes, fills consecutive
cells from its origin on (modulo 2^16), nothing else, and the core starts at that origin. The registers are
zero by the spec's own decision D6 (R25, log 6). -/
def Obligations.LaunchOfOneImageFillsItsCells : Prop :=
  ∀ (c : Config) (choice origin : Word) (payload : List Word), payload.length ≤ 65536 →
    ∃ s, launch c choice [imageBytes (origin :: payload)] = .ok s ∧
      s.run = .running ∧ s.pc = origin ∧ s.cond = c.flZro ∧ (∀ r, s.reg r = 0) ∧
      (∀ k, (h : k < payload.length) → s.mem.read (origin + BitVec.ofNat 16 k) = payload[k]) ∧
      (∀ a, (∀ k, k < payload.length → a ≠ origin + BitVec.ofNat 16 k) → s.mem.read a = 0)

/-- 70_reset_and_hazards.md R167, R166, R163 (decision D9; log 22 for two images of one origin): two images are loaded
in the order given, the later one over the earlier one; PC_START is the host's choice unless the origins agree.
The registers are zero by the spec's own decision D6 (R25, log 6), the cells wrap by D16 (log 22). -/
def Obligations.LaunchOfTwoImagesLaterOneWins : Prop :=
  ∀ (c : Config) (choice o p : Word) (first later : List Word), first.length ≤ 65536 → later.length ≤ 65536 →
    ∃ s, launch c choice [imageBytes (o :: first), imageBytes (p :: later)] = .ok s ∧
      s.run = .running ∧ s.cond = c.flZro ∧ (∀ r, s.reg r = 0) ∧
      (p = o → s.pc = o) ∧ (p ≠ o → s.pc = choice) ∧
      (∀ k, (h : k < later.length) → s.mem.read (p + BitVec.ofNat 16 k) = later[k]) ∧
      (∀ a, (∀ k, k < later.length → a ≠ p + BitVec.ofNat 16 k) →
        (∀ k, (h : k < first.length) → a = o + BitVec.ofNat 16 k → s.mem.read a = first[k]) ∧
        ((∀ k, k < first.length → a ≠ o + BitVec.ofNat 16 k) → s.mem.read a = 0))

/-- 70_reset_and_hazards.md R166, decision D25: an image of odd length, or of no word at all, is refused
(log 22). -/
def Obligations.LaunchRefusesMalformedImages : Prop :=
  (∀ (c : Config) (choice : Word) (bytes : List Byte), bytes.length % 2 = 1 →
    launch c choice [bytes] = .error .oddLength) ∧
  (∀ (c : Config) (choice : Word), launch c choice [[]] = .error .noOriginWord)

/-! ## The step -/

/-- 30_encoding.md R51: the fetch reads the cell at `pc` by a MemRead and increments `pc` modulo 2^16 in every step,
whatever the opcode; the instruction its word decodes to then executes on that state. -/
def Obligations.StepFetchesIncrementsAndExecutes : Prop :=
  ∀ (s : State) (i : Instr), s.run = .running → decode s.cfg (memRead s.pc s).1 = .ok i →
    step s = exec i ((memRead s.pc s).2.setPc (s.pc + 1))

/-- 10_state.md R20, R28, 70_reset_and_hazards.md R165 (decisions D7 and D21; that the answer is the unchanged state
is the model's choice, log 10): outside RUNNING nothing happens. -/
def Obligations.NoStepOutsideRunning : Prop :=
  ∀ s : State, s.run ≠ .running → step s = .next s ∧ ∀ t, Reaches s t → t = s

/-- 10_state.md R16 and the canonical form of memory (log 7): every step keeps a legal configuration, exactly one flag
and the canonical form. -/
def Obligations.StepKeepsTheInvariant : Prop :=
  ∀ s t : State, Inv s → step s = .next t → Inv t

/-- 20_memory.md R47: a store to the next cell is what the next step executes. -/
def Obligations.StoreIsSeenByTheNextFetch : Prop :=
  ∀ (s : State) (r : RegIdx) (i : Instr), s.run = .running → s.pc ≠ s.cfg.kbsrAddr →
    decode s.cfg (s.reg r) = .ok i →
    ∃ t, exec (.st r 0) s = .next t ∧ t.pc = s.pc ∧ step t = exec i (t.setPc (t.pc + 1))

/-- 20_memory.md R38, under the default opcode numbers of RTI and BR (log 1), wherever the keyboard cells are: a fetch
from the status cell polls and rewrites that cell, with a key the data cell too. The word fetched is 0x8000, a fatal
stop, when a key is pending, and 0x0000, a branch never taken, when none is; nothing else changes but `pc`
(decisions D22, and D7 for the fatal stop). -/
def Obligations.FetchFromTheStatusCell : Prop :=
  ∀ s : State, s.cfg.Legal → s.cfg.opRTI = 8 → s.cfg.opBR = 0 → s.run = .running → s.pc = s.cfg.kbsrAddr →
    (∀ b, (kbdPoll s).1 = some b → ∃ t, step s = .next t ∧ t.run = .fatal .illegalOpcode 0x8000 ∧
      t.mem.read s.cfg.kbsrAddr = 0x8000 ∧ t.mem.read s.cfg.kbdrAddr = b.setWidth 16 ∧
      CellsKeptBut [s.cfg.kbsrAddr, s.cfg.kbdrAddr] s t ∧ t.env = (kbdPoll s).2.env ∧
      RegsKeptBut [] s t ∧ t.cond = s.cond ∧ t.pc = s.pc + 1 ∧ t.cfg = s.cfg) ∧
    ((kbdPoll s).1 = none → ∃ t, step s = .next t ∧ t.run = .running ∧
      t.mem.read s.cfg.kbsrAddr = 0 ∧ CellsKeptBut [s.cfg.kbsrAddr] s t ∧ t.env = (kbdPoll s).2.env ∧
      RegsKeptBut [] s t ∧ t.cond = s.cond ∧ t.pc = s.pc + 1 ∧ t.cfg = s.cfg)

/-! ## Flags -/

/-- 10_state.md R17: `setcc(i)` sets exactly one flag, by the sign of `x[i]`, and writes `cond` only. -/
def Obligations.SetccMatchesTheSign : Prop :=
  ∀ (i : RegIdx) (s : State), s.cfg.Legal →
    ((setcc i s).cond = s.cfg.flZro ↔ s.reg i = 0) ∧
    ((setcc i s).cond = s.cfg.flNeg ↔ (s.reg i).toInt < 0) ∧
    ((setcc i s).cond = s.cfg.flPos ↔ 0 < (s.reg i).toInt) ∧
    CondOneHot (setcc i s) ∧ setcc i s = s.setCond (setcc i s).cond

/-- 10_state.md R18: `cond` is written by ADD, AND, NOT, LD, LDI, LDR, LEA from their destination and by GETC and IN
from R0, by nothing else (no fatal stop, no poll), and BR alone reads it. -/
def Obligations.FlagsWrittenAndReadAsListed : Prop :=
  (∀ (i : Instr) (s t : State), exec i s = .next t →
    match flagSource i with
    | some d => t.cond = condFor s.cfg (t.reg d)
    | none => t.cond = s.cond) ∧
  (∀ (i : Instr) (s t : State) (k : BitVec 3), (∀ nzp off, i ≠ .br nzp off) → exec i s = .next t →
    exec i (s.setCond k) = .next (if (flagSource i).isSome then t else t.setCond k)) ∧
  (∀ (a : Word) (s : State), (memRead a s).2.cond = s.cond)

/-! ## Memory and the keyboard cells -/

/-- 20_memory.md R32: the read primitive, at the status address (after the poll) and everywhere else. -/
def Obligations.MemReadPollsAtTheStatusAddressOnly : Prop :=
  ∀ (a : Word) (s : State), s.cfg.Legal →
    (a ≠ s.cfg.kbsrAddr → memRead a s = (s.mem.read a, s)) ∧
    (a = s.cfg.kbsrAddr →
      (memRead a s).2.env = (kbdPoll s).2.env ∧
      (memRead a s).2.pc = s.pc ∧ (memRead a s).2.cond = s.cond ∧
      RegsKeptBut [] s (memRead a s).2 ∧ ControlKept s (memRead a s).2 ∧
      CellsKeptBut [s.cfg.kbsrAddr, s.cfg.kbdrAddr] s (memRead a s).2 ∧
      (memRead a s).2.mem.read s.cfg.kbsrAddr = (memRead a s).1 ∧
      match (kbdPoll s).1 with
      | some b => (memRead a s).1 = 0x8000 ∧ (memRead a s).2.mem.read s.cfg.kbdrAddr = b.setWidth 16
      | none => (memRead a s).1 = 0 ∧ (memRead a s).2.mem.read s.cfg.kbdrAddr = s.mem.read s.cfg.kbdrAddr)

/-- 20_memory.md R34: reading the data cell gives what the last poll that found a key, or a later store, put there,
and has no side effect. -/
def Obligations.DataCellReadHasNoEffect : Prop :=
  ∀ (s : State), s.cfg.Legal →
    memRead s.cfg.kbdrAddr s = (s.mem.read s.cfg.kbdrAddr, s) ∧
    (∀ b, (kbdPoll s).1 = some b →
      (memRead s.cfg.kbdrAddr (memRead s.cfg.kbsrAddr s).2).1 = b.setWidth 16) ∧
    (∀ v, (memRead s.cfg.kbdrAddr (memWrite s.cfg.kbdrAddr v s)).1 = v) ∧
    (memRead s.cfg.kbdrAddr (State.resetWith s.cfg)).1 = 0

/-- 20_memory.md R35: a plain store at every address: all 16 bits, that cell and nothing else. -/
def Obligations.MemWriteIsAPlainStore : Prop :=
  ∀ (a v : Word) (s : State),
    (memWrite a v s).mem.read a = v ∧ CellsKeptBut [a] s (memWrite a v s) ∧
    (memWrite a v s).env = s.env ∧ (memWrite a v s).pc = s.pc ∧ (memWrite a v s).cond = s.cond ∧
    RegsKeptBut [] s (memWrite a v s) ∧ ControlKept s (memWrite a v s)

/-- 00_scope.md R8 (decision D5; the list of answers is the model's, log 11, its record log 24): a poll answers at
once with the listed answer, whatever it is, and is recorded; it touches no register, cell, flag or run state. -/
def Obligations.PollTakesTheListedAnswer : Prop :=
  (∀ (s : State) (k : Option Byte) (rest : List (Option Byte)), s.env.kbdAnswers = k :: rest →
    (kbdPoll s).1 = k ∧ (kbdPoll s).2.env.kbdAnswers = rest) ∧
  (∀ s : State, (kbdPoll s).2.env.inputs = s.env.inputs ++ [.kbdPoll (kbdPoll s).1] ∧
    (kbdPoll s).2 = s.setEnv (kbdPoll s).2.env ∧ (kbdPoll s).2.env.output = s.env.output ∧
    (kbdPoll s).2.env.charBytes = s.env.charBytes)

/-- The model's canonical form (log 7): two memories in it that read alike are the same data. -/
def Obligations.EqualMemoriesAreEqualData : Prop :=
  ∀ m n : Memory, m.wf = true → n.wf = true → (∀ a, m.read a = n.read a) → m = n

/-! ## Arithmetic -/

/-- 40_alu.md R70. -/
def Obligations.AddRegisterForm : Prop :=
  (∀ (c : Config) (w : Word), c.Legal → w.extractLsb' 12 4 = c.opADD → w.getLsbD 5 = false →
    decode c w = .ok (.add (w.extractLsb' 9 3) (w.extractLsb' 6 3) (w.extractLsb' 3 2) (w.extractLsb' 0 3))) ∧
  ∀ (d a b : RegIdx) (u : BitVec 2) (s : State), ∃ t, exec (.add d a u b) s = .next t ∧
    (t.reg d).toNat = ((s.reg a).toNat + (s.reg b).toNat) % 2 ^ 16 ∧ t.cond = condFor s.cfg (t.reg d) ∧
    RegsKeptBut [d] s t ∧ t.pc = s.pc ∧ CellsKept s t ∧ t.env = s.env ∧ ControlKept s t

/-- 40_alu.md R71. -/
def Obligations.AddImmediateForm : Prop :=
  (∀ (c : Config) (w : Word), c.Legal → w.extractLsb' 12 4 = c.opADD → w.getLsbD 5 = true →
    decode c w = .ok (.addi (w.extractLsb' 9 3) (w.extractLsb' 6 3) (w.extractLsb' 0 5))) ∧
  ∀ (d a : RegIdx) (imm : BitVec 5) (s : State), ∃ t, exec (.addi d a imm) s = .next t ∧
    t.reg d = s.reg a + imm.signExtend 16 ∧ t.cond = condFor s.cfg (t.reg d) ∧
    RegsKeptBut [d] s t ∧ t.pc = s.pc ∧ CellsKept s t ∧ t.env = s.env ∧ ControlKept s t

/-- 40_alu.md R72; the second register field is three bits wide (30_encoding.md R57). -/
def Obligations.AndRegisterForm : Prop :=
  (∀ (c : Config) (w : Word), c.Legal → w.extractLsb' 12 4 = c.opAND → w.getLsbD 5 = false →
    decode c w = .ok (.and (w.extractLsb' 9 3) (w.extractLsb' 6 3) (w.extractLsb' 3 2) (w.extractLsb' 0 3))) ∧
  ∀ (d a b : RegIdx) (u : BitVec 2) (s : State), ∃ t, exec (.and d a u b) s = .next t ∧
    (∀ n, n < 16 → (t.reg d).getLsbD n = ((s.reg a).getLsbD n && (s.reg b).getLsbD n)) ∧
    t.cond = condFor s.cfg (t.reg d) ∧
    RegsKeptBut [d] s t ∧ t.pc = s.pc ∧ CellsKept s t ∧ t.env = s.env ∧ ControlKept s t

/-- 40_alu.md R73: the immediate is sign-extended before the AND. -/
def Obligations.AndImmediateForm : Prop :=
  (∀ (c : Config) (w : Word), c.Legal → w.extractLsb' 12 4 = c.opAND → w.getLsbD 5 = true →
    decode c w = .ok (.andi (w.extractLsb' 9 3) (w.extractLsb' 6 3) (w.extractLsb' 0 5))) ∧
  ∀ (d a : RegIdx) (imm : BitVec 5) (s : State), ∃ t, exec (.andi d a imm) s = .next t ∧
    t.reg d = s.reg a &&& imm.signExtend 16 ∧ t.cond = condFor s.cfg (t.reg d) ∧
    RegsKeptBut [d] s t ∧ t.pc = s.pc ∧ CellsKept s t ∧ t.env = s.env ∧ ControlKept s t

/-- 40_alu.md R74. -/
def Obligations.NotComplements : Prop :=
  (∀ (c : Config) (w : Word), c.Legal → w.extractLsb' 12 4 = c.opNOT →
    decode c w = .ok (.not (w.extractLsb' 9 3) (w.extractLsb' 6 3) (w.extractLsb' 0 6))) ∧
  ∀ (d a : RegIdx) (u : BitVec 6) (s : State), ∃ t, exec (.not d a u) s = .next t ∧
    (t.reg d).toNat = 65535 - (s.reg a).toNat ∧ t.cond = condFor s.cfg (t.reg d) ∧
    RegsKeptBut [d] s t ∧ t.pc = s.pc ∧ CellsKept s t ∧ t.env = s.env ∧ ControlKept s t

/-! ## Control transfer -/

/-- 41_control.md R80: taken when the field and `cond` share a bit; the target counts from the incremented PC. -/
def Obligations.BranchIsTakenOnAMatchingFlag : Prop :=
  (∀ (c : Config) (w : Word), c.Legal → w.extractLsb' 12 4 = c.opBR →
    decode c w = .ok (.br (w.extractLsb' 9 3) (w.extractLsb' 0 9))) ∧
  ∀ (nzp : BitVec 3) (off : BitVec 9) (s : State), ∃ t, exec (.br nzp off) s = .next t ∧
    (nzp &&& s.cond ≠ 0 → t.pc = s.pc + off.signExtend 16) ∧ (nzp &&& s.cond = 0 → t.pc = s.pc) ∧
    t.cond = s.cond ∧ RegsKeptBut [] s t ∧ CellsKept s t ∧ t.env = s.env ∧ ControlKept s t

/-- 41_control.md R81: with no condition bit a BR does nothing; with all three it always branches, since exactly one
flag is set (the invariant). -/
def Obligations.DegenerateBranches : Prop :=
  ∀ (off : BitVec 9) (s : State), Inv s →
    exec (.br 0b000 off) s = .next s ∧ exec (.br 0b111 off) s = .next (s.setPc (s.pc + off.signExtend 16))

/-- 41_control.md R82. -/
def Obligations.JumpGoesToTheBaseRegister : Prop :=
  (∀ (c : Config) (w : Word), c.Legal → w.extractLsb' 12 4 = c.opJMP →
    decode c w = .ok (.jmp (w.extractLsb' 9 3) (w.extractLsb' 6 3) (w.extractLsb' 0 6))) ∧
  ∀ (u base : RegIdx) (v : BitVec 6) (s : State), ∃ t, exec (.jmp u base v) s = .next t ∧ t.pc = s.reg base ∧
    t.cond = s.cond ∧ RegsKeptBut [] s t ∧ CellsKept s t ∧ t.env = s.env ∧ ControlKept s t

/-- 41_control.md R83. -/
def Obligations.JumpToSubroutineLinksAndJumps : Prop :=
  (∀ (c : Config) (w : Word), c.Legal → w.extractLsb' 12 4 = c.opJSR → w.getLsbD 11 = true →
    decode c w = .ok (.jsr (w.extractLsb' 0 11))) ∧
  ∀ (off : BitVec 11) (s : State), ∃ t, exec (.jsr off) s = .next t ∧
    t.reg 7#3 = s.pc ∧ t.pc = s.pc + off.signExtend 16 ∧
    t.cond = s.cond ∧ RegsKeptBut [7] s t ∧ CellsKept s t ∧ t.env = s.env ∧ ControlKept s t

/-- 41_control.md R84 (the spec's own decision D18 for R7, log 20): R7 is written first, so JSRR R7 continues at the
next instruction. -/
def Obligations.JumpToSubroutineThroughRegister : Prop :=
  (∀ (c : Config) (w : Word), c.Legal → w.extractLsb' 12 4 = c.opJSR → w.getLsbD 11 = false →
    decode c w = .ok (.jsrr (w.extractLsb' 9 2) (w.extractLsb' 6 3) (w.extractLsb' 0 6))) ∧
  ∀ (u : BitVec 2) (base : RegIdx) (v : BitVec 6) (s : State), ∃ t, exec (.jsrr u base v) s = .next t ∧
    t.reg 7#3 = s.pc ∧ (base ≠ 7 → t.pc = s.reg base) ∧ (base = 7 → t.pc = s.pc) ∧
    t.cond = s.cond ∧ RegsKeptBut [7] s t ∧ CellsKept s t ∧ t.env = s.env ∧ ControlKept s t

/-! ## Loads -/

/-- 42_load.md R90; the read is the MemRead of 20_memory.md R32, with its poll at the status address. -/
def Obligations.LoadPcRelative : Prop :=
  (∀ (c : Config) (w : Word), c.Legal → w.extractLsb' 12 4 = c.opLD →
    decode c w = .ok (.ld (w.extractLsb' 9 3) (w.extractLsb' 0 9))) ∧
  ∀ (d : RegIdx) (off : BitVec 9) (s : State), ∃ t, exec (.ld d off) s = .next t ∧
    t.reg d = (memRead (s.pc + off.signExtend 16) s).1 ∧ t.cond = condFor s.cfg (t.reg d) ∧
    CellsKept (memRead (s.pc + off.signExtend 16) s).2 t ∧ t.env = (memRead (s.pc + off.signExtend 16) s).2.env ∧
    (s.pc + off.signExtend 16 ≠ s.cfg.kbsrAddr → CellsKept s t ∧ t.env = s.env) ∧
    CellsKeptBut [s.cfg.kbsrAddr, s.cfg.kbdrAddr] s t ∧
    RegsKeptBut [d] s t ∧ t.pc = s.pc ∧ ControlKept s t

/-- 42_load.md R91: two reads in order, the pointer and then the data; the flags from the data. -/
def Obligations.LoadIndirect : Prop :=
  (∀ (c : Config) (w : Word), c.Legal → w.extractLsb' 12 4 = c.opLDI →
    decode c w = .ok (.ldi (w.extractLsb' 9 3) (w.extractLsb' 0 9))) ∧
  ∀ (d : RegIdx) (off : BitVec 9) (s p : State) (ea : Word), memRead (s.pc + off.signExtend 16) s = (ea, p) →
    ∃ t, exec (.ldi d off) s = .next t ∧
    t.reg d = (memRead ea p).1 ∧ t.cond = condFor s.cfg (t.reg d) ∧
    CellsKept (memRead ea p).2 t ∧ t.env = (memRead ea p).2.env ∧
    (s.pc + off.signExtend 16 ≠ s.cfg.kbsrAddr → ea ≠ s.cfg.kbsrAddr → CellsKept s t ∧ t.env = s.env) ∧
    CellsKeptBut [s.cfg.kbsrAddr, s.cfg.kbdrAddr] s t ∧
    RegsKeptBut [d] s t ∧ t.pc = s.pc ∧ ControlKept s t

/-- 42_load.md R92: the base is read before the destination is written. -/
def Obligations.LoadBasePlusOffset : Prop :=
  (∀ (c : Config) (w : Word), c.Legal → w.extractLsb' 12 4 = c.opLDR →
    decode c w = .ok (.ldr (w.extractLsb' 9 3) (w.extractLsb' 6 3) (w.extractLsb' 0 6))) ∧
  ∀ (d base : RegIdx) (off : BitVec 6) (s : State), ∃ t, exec (.ldr d base off) s = .next t ∧
    t.reg d = (memRead (s.reg base + off.signExtend 16) s).1 ∧ t.cond = condFor s.cfg (t.reg d) ∧
    CellsKept (memRead (s.reg base + off.signExtend 16) s).2 t ∧
    t.env = (memRead (s.reg base + off.signExtend 16) s).2.env ∧
    (s.reg base + off.signExtend 16 ≠ s.cfg.kbsrAddr → CellsKept s t ∧ t.env = s.env) ∧
    CellsKeptBut [s.cfg.kbsrAddr, s.cfg.kbdrAddr] s t ∧
    RegsKeptBut [d] s t ∧ t.pc = s.pc ∧ ControlKept s t

/-- 42_load.md R93: no memory access, no poll, and the flags are set from the address. -/
def Obligations.LoadEffectiveAddress : Prop :=
  (∀ (c : Config) (w : Word), c.Legal → w.extractLsb' 12 4 = c.opLEA →
    decode c w = .ok (.lea (w.extractLsb' 9 3) (w.extractLsb' 0 9))) ∧
  ∀ (d : RegIdx) (off : BitVec 9) (s : State), ∃ t, exec (.lea d off) s = .next t ∧
    t.reg d = s.pc + off.signExtend 16 ∧ t.cond = condFor s.cfg (t.reg d) ∧
    RegsKeptBut [d] s t ∧ t.pc = s.pc ∧ CellsKept s t ∧ t.env = s.env ∧ ControlKept s t

/-! ## Stores -/

/-- 43_store.md R100. -/
def Obligations.StorePcRelative : Prop :=
  (∀ (c : Config) (w : Word), c.Legal → w.extractLsb' 12 4 = c.opST →
    decode c w = .ok (.st (w.extractLsb' 9 3) (w.extractLsb' 0 9))) ∧
  ∀ (r : RegIdx) (off : BitVec 9) (s : State), ∃ t, exec (.st r off) s = .next t ∧
    t.mem.read (s.pc + off.signExtend 16) = s.reg r ∧ CellsKeptBut [s.pc + off.signExtend 16] s t ∧
    storeTarget (.st r off) s = some (s.pc + off.signExtend 16) ∧
    RegsKeptBut [] s t ∧ t.cond = s.cond ∧ t.pc = s.pc ∧ t.env = s.env ∧ ControlKept s t

/-- 43_store.md R101: the pointer is read first (with the poll of a status cell), then the store goes where it points;
all cells but that one are as the read of the pointer left them. -/
def Obligations.StoreIndirect : Prop :=
  (∀ (c : Config) (w : Word), c.Legal → w.extractLsb' 12 4 = c.opSTI →
    decode c w = .ok (.sti (w.extractLsb' 9 3) (w.extractLsb' 0 9))) ∧
  ∀ (r : RegIdx) (off : BitVec 9) (s p : State) (ea : Word), memRead (s.pc + off.signExtend 16) s = (ea, p) →
    ∃ t, exec (.sti r off) s = .next t ∧
    t.mem.read ea = s.reg r ∧ CellsKeptBut [ea] p t ∧ storeTarget (.sti r off) s = some ea ∧ t.env = p.env ∧
    (s.pc + off.signExtend 16 ≠ s.cfg.kbsrAddr → CellsKeptBut [ea] s t ∧ t.env = s.env) ∧
    CellsKeptBut [ea, s.cfg.kbsrAddr, s.cfg.kbdrAddr] s t ∧
    RegsKeptBut [] s t ∧ t.cond = s.cond ∧ t.pc = s.pc ∧ ControlKept s t

/-- 43_store.md R102. -/
def Obligations.StoreBasePlusOffset : Prop :=
  (∀ (c : Config) (w : Word), c.Legal → w.extractLsb' 12 4 = c.opSTR →
    decode c w = .ok (.str (w.extractLsb' 9 3) (w.extractLsb' 6 3) (w.extractLsb' 0 6))) ∧
  ∀ (r base : RegIdx) (off : BitVec 6) (s : State), ∃ t, exec (.str r base off) s = .next t ∧
    t.mem.read (s.reg base + off.signExtend 16) = s.reg r ∧
    CellsKeptBut [s.reg base + off.signExtend 16] s t ∧
    storeTarget (.str r base off) s = some (s.reg base + off.signExtend 16) ∧
    RegsKeptBut [] s t ∧ t.cond = s.cond ∧ t.pc = s.pc ∧ t.env = s.env ∧ ControlKept s t

/-! ## Traps and fatal stops -/

/-- 44_trap.md R111: the low eight bits select the service; any other vector is the undefined one. -/
def Obligations.TrapDispatchesOnItsVector : Prop :=
  ∀ (c : Config) (w : Word), c.Legal → w.extractLsb' 12 4 = c.opTRAP →
    (w.extractLsb' 0 8 = 0x20#8 → decode c w = .ok (.getc (w.extractLsb' 8 4))) ∧
    (w.extractLsb' 0 8 = 0x21#8 → decode c w = .ok (.out (w.extractLsb' 8 4))) ∧
    (w.extractLsb' 0 8 = 0x22#8 → decode c w = .ok (.puts (w.extractLsb' 8 4))) ∧
    (w.extractLsb' 0 8 = 0x23#8 → decode c w = .ok (.inp (w.extractLsb' 8 4))) ∧
    (w.extractLsb' 0 8 = 0x24#8 → decode c w = .ok (.putsp (w.extractLsb' 8 4))) ∧
    (w.extractLsb' 0 8 = 0x25#8 → decode c w = .ok (.halt (w.extractLsb' 8 4))) ∧
    ((w.extractLsb' 0 8).toNat < 0x20 ∨ 0x25 < (w.extractLsb' 0 8).toNat →
      decode c w = .ok (.trapUndefined (w.extractLsb' 8 4) (w.extractLsb' 0 8)))

/-- 44_trap.md R110, R119 (decision D19, log 21): every TRAP that completes has saved the incremented PC in R7, has
not moved `pc`, and but for R0 of GETC and IN has written no other register. -/
def Obligations.EveryTrapSavesThePcInRSeven : Prop :=
  ∀ (i : Instr) (s t : State), isTrap i = true → exec i s = .next t →
    t.reg 7#3 = s.pc ∧ t.pc = s.pc ∧ RegsKeptBut (writtenRegs i) s t

/-- 44_trap.md R112: GETC, on the byte that arrives. That it is the first of a list in the state, and that the rest of
the list stays, is the model's form of the spec's byte supply (D24, log 12). -/
def Obligations.GetcReadsOneByte : Prop :=
  (∀ (c : Config) (w : Word), c.Legal → w.extractLsb' 12 4 = c.opTRAP → w.extractLsb' 0 8 = 0x20#8 →
    decode c w = .ok (.getc (w.extractLsb' 8 4))) ∧
  ∀ (u : BitVec 4) (b : Byte) (rest : List Byte) (s : State), s.cfg.Legal → s.env.charBytes = b :: rest →
    ∃ t, exec (.getc u) s = .next t ∧ t.reg 0#3 = b.setWidth 16 ∧ t.reg 7#3 = s.pc ∧
      (b = 0#8 → t.cond = s.cfg.flZro) ∧ (b ≠ 0#8 → t.cond = s.cfg.flPos) ∧
      t.env = { s.env with charBytes := rest, inputs := s.env.inputs ++ [.charIn b] } ∧
      RegsKeptBut [0, 7] s t ∧ t.pc = s.pc ∧ CellsKept s t ∧ ControlKept s t

/-- 44_trap.md R113, R120: OUT. That all 16 bits of R0 are handed over is the spec's own decision D10 (log 18). -/
def Obligations.OutWritesRegisterZero : Prop :=
  (∀ (c : Config) (w : Word), c.Legal → w.extractLsb' 12 4 = c.opTRAP → w.extractLsb' 0 8 = 0x21#8 →
    decode c w = .ok (.out (w.extractLsb' 8 4))) ∧
  ∀ (u : BitVec 4) (s : State), ∃ t, exec (.out u) s = .next t ∧
    t.env = { s.env with output := s.env.output ++ [s.reg 0#3] } ∧ t.reg 7#3 = s.pc ∧
    RegsKeptBut [7] s t ∧ t.cond = s.cond ∧ t.pc = s.pc ∧ CellsKept s t ∧ ControlKept s t

/-- 44_trap.md R115 (decision D12): the prompt, the read, the echo, the register, the flags. That the byte is the
first of a list in the state, and that the rest stays, is the model's form of the spec's byte supply (D24, log 12). -/
def Obligations.InPromptsReadsAndEchoes : Prop :=
  ∀ (u : BitVec 4) (b : Byte) (rest : List Byte) (s : State), s.cfg.Legal → s.env.charBytes = b :: rest →
    ∃ t, exec (.inp u) s = .next t ∧ t.reg 0#3 = b.setWidth 16 ∧ t.reg 7#3 = s.pc ∧
      (b = 0#8 → t.cond = s.cfg.flZro) ∧ (b ≠ 0#8 → t.cond = s.cfg.flPos) ∧
      t.env = { s.env with
        charBytes := rest
        inputs := s.env.inputs ++ [.charIn b]
        output := s.env.output ++ s.cfg.inPrompt ++ [b.setWidth 16] } ∧
      RegsKeptBut [0, 7] s t ∧ t.pc = s.pc ∧ CellsKept s t ∧ ControlKept s t

/-- 00_scope.md R8, 30_encoding.md R50, 93_implementation_defined.md U7 (log 12): where no byte is listed, GETC and IN
complete with some byte, whatever it is, or the step never ends, R7 and IN's prompt written (the order of
IN: decision D12). -/
def Obligations.UnlistedInputIsAnyByteOrNone : Prop :=
  ∀ (u : BitVec 4) (s : State), s.env.charBytes = [] →
    ((∃ b t, exec (.getc u) s = .next t ∧ t.reg 0#3 = b.setWidth 16 ∧ t.reg 7#3 = s.pc ∧
        t.env.inputs = s.env.inputs ++ [.charIn b] ∧ t.env.output = s.env.output) ∨
      exec (.getc u) s = .refused (.inputNeverArrives (s.setReg 7#3 s.pc))) ∧
    ((∃ (b : Byte) (t : State), exec (.inp u) s = .next t ∧ t.reg 0#3 = b.setWidth 16 ∧ t.reg 7#3 = s.pc ∧
        t.env.inputs = s.env.inputs ++ [.charIn b] ∧
        t.env.output = s.env.output ++ s.cfg.inPrompt ++ [b.setWidth 16]) ∨
      ∃ stuck, exec (.inp u) s = .refused (.inputNeverArrives stuck) ∧ stuck.reg 7#3 = s.pc ∧
        stuck.env.output = s.env.output ++ s.cfg.inPrompt)

/-- 44_trap.md R114, R116 (decisions D10, D11, D14, log 18, 19): PUTS and PUTSP complete exactly where their loops end,
after whatever number of reads, in the state in which they end. A PUTS that never ends is refused (U5, log 15); a PUTSP
always ends, since the status cell reads with a zero low byte. -/
def Obligations.StringServicesFollowTheirLoops : Prop :=
  ∀ (u : BitVec 4) (s : State),
    (∀ t, exec (.puts u) s = .next t ↔ ∃ n, PutsWalk n (s.reg 0#3) (s.setReg 7#3 s.pc) t) ∧
    (∀ t, exec (.putsp u) s = .next t ↔ ∃ n, PutspWalk n (s.reg 0#3) (s.setReg 7#3 s.pc) t) ∧
    ((∃ t, exec (.puts u) s = .next t) ∨ ∃ reached, exec (.puts u) s = .refused (.serviceNotEnded reached)) ∧
    ∃ t, exec (.putsp u) s = .next t

/-- 44_trap.md R114, R116: wherever memory holds a zero cell outside the keyboard, PUTS and PUTSP complete, from any
start and whatever the polls answer; only R7, the environment and the keyboard cells may differ. That the reads
poll, that R0 is kept and that PUTSP stops at a zero low byte are the spec's own decisions D11 and D14 (log 19). -/
def Obligations.StringServicesEndAtAnyZeroCell : Prop :=
  ∀ (u : BitVec 4) (s : State) (z : Word), z ≠ s.cfg.kbsrAddr → z ≠ s.cfg.kbdrAddr → s.mem.read z = 0 →
    (∃ t, exec (.puts u) s = .next t ∧ t.reg 7#3 = s.pc ∧ RegsKeptBut [7] s t ∧ t.cond = s.cond ∧ t.pc = s.pc ∧
      CellsKeptBut [s.cfg.kbsrAddr, s.cfg.kbdrAddr] s t ∧ ControlKept s t) ∧
    (∃ t, exec (.putsp u) s = .next t ∧ t.reg 7#3 = s.pc ∧ RegsKeptBut [7] s t ∧ t.cond = s.cond ∧ t.pc = s.pc ∧
      CellsKeptBut [s.cfg.kbsrAddr, s.cfg.kbdrAddr] s t ∧ ControlKept s t)

/-- 44_trap.md R114 (decisions D10, D11; log 18, 19): PUTS writes the cells before the first zero cell, whole and in
order, and that is all it does. -/
def Obligations.PutsWritesTheStringBeforeTheFirstZeroCell : Prop :=
  ∀ (u : BitVec 4) (s : State) (cells : List Word), CellsAt s (s.reg 0#3) cells → 0 ∈ cells →
    exec (.puts u) s = .next ((s.setReg 7#3 s.pc).setEnv
      { s.env with output := s.env.output ++ cells.takeWhile (· != 0) })

/-- 44_trap.md R116 (decisions D10, D11, D14; log 18, 19): PUTSP writes the byte stream (low byte, high byte, cell by
cell) before its first zero byte, each byte zero-extended, and that is all it does. -/
def Obligations.PutspWritesTheBytesBeforeTheFirstZeroByte : Prop :=
  ∀ (u : BitVec 4) (s : State) (cells : List Word), CellsAt s (s.reg 0#3) cells → 0 ∈ packedBytes cells →
    exec (.putsp u) s = .next ((s.setReg 7#3 s.pc).setEnv
      { s.env with
        output := s.env.output ++ ((packedBytes cells).takeWhile (· != 0)).map (fun b => b.setWidth 16) })

/-- 44_trap.md R117 (decision D13): HALT writes its message, saves the PC in R7 (the spec's own decision D19, log
21) and stops; a later step answers the same state (log 10). -/
def Obligations.HaltStopsTheRun : Prop :=
  ∀ (u : BitVec 4) (s : State), ∃ t, exec (.halt u) s = .next t ∧ t.run = .halted ∧ t.reg 7#3 = s.pc ∧ t.pc = s.pc ∧
    t.env = { s.env with output := s.env.output ++ s.cfg.haltMessage } ∧ t.cfg = s.cfg ∧
    RegsKeptBut [7] s t ∧ t.cond = s.cond ∧ CellsKept s t ∧ step t = .next t

/-- 44_trap.md R118: R7 is written (the spec's own decision D19, log 21), then the fatal stop with the instruction's
own word, and nothing else. That a later step answers the unchanged state is the model's choice (log 10). -/
def Obligations.UndefinedVectorIsAFatalStop : Prop :=
  (∀ (c : Config) (w : Word), c.Legal → w.extractLsb' 12 4 = c.opTRAP →
    (w.extractLsb' 0 8).toNat < 0x20 ∨ 0x25 < (w.extractLsb' 0 8).toNat →
    decode c w = .ok (.trapUndefined (w.extractLsb' 8 4) (w.extractLsb' 0 8)) ∧
    encode c (.trapUndefined (w.extractLsb' 8 4) (w.extractLsb' 0 8)) = w) ∧
  ∀ (u : BitVec 4) (vec : Byte) (s : State), ∃ t, exec (.trapUndefined u vec) s = .next t ∧
    t.run = .fatal .undefinedTrapVector (encode s.cfg (.trapUndefined u vec)) ∧ t.reg 7#3 = s.pc ∧
    RegsKeptBut [7] s t ∧ t.pc = s.pc ∧ t.cond = s.cond ∧ CellsKept s t ∧ t.env = s.env ∧ t.cfg = s.cfg ∧
    step t = .next t

/-- 45_reserved.md R130, R131: any word of the two reserved opcodes, and what it does. That the stop records the word
is the spec's own decision D7; that a later step answers the unchanged state is the model's choice (log 10). -/
def Obligations.ReservedOpcodesAreFatalStops : Prop :=
  (∀ (c : Config) (w : Word), c.Legal →
    (w.extractLsb' 12 4 = c.opRTI → decode c w = .ok (.rti (w.extractLsb' 0 12)) ∧
      encode c (.rti (w.extractLsb' 0 12)) = w) ∧
    (w.extractLsb' 12 4 = c.opRES → decode c w = .ok (.res (w.extractLsb' 0 12)) ∧
      encode c (.res (w.extractLsb' 0 12)) = w)) ∧
  ∀ (u : BitVec 12) (s : State),
    (∃ t, exec (.rti u) s = .next t ∧ t.run = .fatal .illegalOpcode (encode s.cfg (.rti u)) ∧
      RegsKeptBut [] s t ∧ t.pc = s.pc ∧ t.cond = s.cond ∧ CellsKept s t ∧ t.env = s.env ∧ t.cfg = s.cfg ∧
      step t = .next t) ∧
    (∃ t, exec (.res u) s = .next t ∧ t.run = .fatal .illegalOpcode (encode s.cfg (.res u)) ∧
      RegsKeptBut [] s t ∧ t.pc = s.pc ∧ t.cond = s.cond ∧ CellsKept s t ∧ t.env = s.env ∧ t.cfg = s.cfg ∧
      step t = .next t)

/-- 60_exceptions.md R143: a fatal stop is precise. The step that fetches a reserved opcode or an undefined vector
records the fetched word itself; it has done its fetch, the increment and, for the vector, the write of R7 (decision
D19, log 21); the faulting address is `pc - 1`, and a later step answers the same state (log 10). -/
def Obligations.FatalStopsArePrecise : Prop :=
  ∀ (s : State) (w : Word), Inv s → s.run = .running → (memRead s.pc s).1 = w →
    (w.extractLsb' 12 4 = s.cfg.opRTI ∨ w.extractLsb' 12 4 = s.cfg.opRES →
      ∃ t, step s = .next t ∧ t = ((memRead s.pc s).2.setPc (s.pc + 1)).setRun (.fatal .illegalOpcode w) ∧
        faultingAddress t = s.pc ∧ step t = .next t) ∧
    (w.extractLsb' 12 4 = s.cfg.opTRAP →
      (w.extractLsb' 0 8).toNat < 0x20 ∨ 0x25 < (w.extractLsb' 0 8).toNat →
      ∃ t, step s = .next t ∧
        t = (((memRead s.pc s).2.setPc (s.pc + 1)).setReg 7#3 (s.pc + 1)).setRun (.fatal .undefinedTrapVector w) ∧
        faultingAddress t = s.pc ∧ step t = .next t)

/-! ## Rules about all instructions at once -/

/-- 10_state.md R12 and its table: an instruction writes the general registers listed for it and no other. -/
def Obligations.RegistersWrittenAsListed : Prop :=
  ∀ (i : Instr) (s t : State), exec i s = .next t → RegsKeptBut (writtenRegs i) s t

/-- 10_state.md R14 (decision D20): after the fetch, BR, JMP, JSR and JSRR alone write `pc`; after any other step that
completes while RUNNING it holds the incremented value. -/
def Obligations.ProgramCounterWrittenByControlTransfersOnly : Prop :=
  (∀ (i : Instr) (s t : State), writesPc i = false → exec i s = .next t → t.pc = s.pc) ∧
  ∀ (i : Instr) (s t : State), s.run = .running → decode s.cfg (memRead s.pc s).1 = .ok i → writesPc i = false →
    step s = .next t → t.pc = s.pc + 1

/-- 10_state.md R20, 70_reset_and_hazards.md R170 (decision D7): RUNNING is left by HALT for HALTED, by a reserved
opcode or an undefined vector for FATAL, and in no other way. -/
def Obligations.RunLeftOnlyByHaltAndFatalStops : Prop :=
  ∀ (i : Instr) (s t : State), exec i s = .next t → t.run ≠ s.run →
    (∃ u, i = .halt u ∧ t.run = .halted) ∨
    ((∃ u, i = .rti u ∨ i = .res u) ∧ t.run = .fatal .illegalOpcode (encode s.cfg i)) ∨
    (∃ u vec, i = .trapUndefined u vec ∧ t.run = .fatal .undefinedTrapVector (encode s.cfg i))

/-- 20_memory.md R44 (d): a cell changes only where a store stores, or at the keyboard cells by a poll, and then the
input trace has grown. That PUTS and PUTSP may poll is the spec's own decision D11 (log 19). -/
def Obligations.MemoryWrittenByStoresAndPollsOnly : Prop :=
  ∀ (i : Instr) (s t : State) (a : Word), exec i s = .next t → t.mem.read a ≠ s.mem.read a →
    storeTarget i s = some a ∨
    ((a = s.cfg.kbsrAddr ∨ a = s.cfg.kbdrAddr) ∧ s.env.inputs.length < t.env.inputs.length)

/-- 00_scope.md R9, 44_trap.md R120: the traces only grow, at their ends; only OUT, PUTS, IN, PUTSP and HALT write
output; and no instruction changes the configuration (10_state.md R24). HALT's message is decision D13; the input
trace holds answered calls (log 24); the configuration stands in the state (log 5). -/
def Obligations.TracesOnlyGrow : Prop :=
  ∀ (i : Instr) (s t : State), exec i s = .next t →
    s.env.output <+: t.env.output ∧ s.env.inputs <+: t.env.inputs ∧ t.cfg = s.cfg ∧
    ((∀ u, i ≠ .out u ∧ i ≠ .puts u ∧ i ≠ .inp u ∧ i ≠ .putsp u ∧ i ≠ .halt u) → t.env.output = s.env.output)
end

