-- ==== Sys2Proof/Laws/Decode.lean ====
section
/-! SUPPORT. The decoder, one lemma for each opcode: in a legal configuration the opcode field alone selects the
handler (30_encoding.md R52), because the sixteen numbers differ (00_scope.md R5). -/

namespace Sys2Proof

/-- The sixteen opcode numbers of a legal configuration differ, pair by pair, in the order of `Config.opcodes`. -/
theorem Config.Legal.opcodes_nodup {c : Config} (h : c.Legal) : c.opcodes.Nodup := h.1

section
variable {c : Config} (hl : c.Legal) (w : Word)

include hl in
theorem decode_opBR (h : fieldOpcode w = c.opBR) : decode c w = .ok (.br (fieldCond w) (fieldOff9 w)) := by
  have hd := hl.opcodes_nodup
  simp only [Config.opcodes, List.nodup_cons, List.mem_cons, List.not_mem_nil, not_or, or_false] at hd
  simp only [decode, h]
  simp_all [eq_comm]

include hl in
theorem decode_opADD (h : fieldOpcode w = c.opADD) : decode c w = .ok (decodeAdd w) := by
  have hd := hl.opcodes_nodup
  simp only [Config.opcodes, List.nodup_cons, List.mem_cons, List.not_mem_nil, not_or, or_false] at hd
  simp only [decode, h]
  simp_all [eq_comm]

include hl in
theorem decode_opLD (h : fieldOpcode w = c.opLD) : decode c w = .ok (.ld (fieldR0 w) (fieldOff9 w)) := by
  have hd := hl.opcodes_nodup
  simp only [Config.opcodes, List.nodup_cons, List.mem_cons, List.not_mem_nil, not_or, or_false] at hd
  simp only [decode, h]
  simp_all [eq_comm]

include hl in
theorem decode_opST (h : fieldOpcode w = c.opST) : decode c w = .ok (.st (fieldR0 w) (fieldOff9 w)) := by
  have hd := hl.opcodes_nodup
  simp only [Config.opcodes, List.nodup_cons, List.mem_cons, List.not_mem_nil, not_or, or_false] at hd
  simp only [decode, h]
  simp_all [eq_comm]

include hl in
theorem decode_opJSR (h : fieldOpcode w = c.opJSR) : decode c w = .ok (decodeJsr w) := by
  have hd := hl.opcodes_nodup
  simp only [Config.opcodes, List.nodup_cons, List.mem_cons, List.not_mem_nil, not_or, or_false] at hd
  simp only [decode, h]
  simp_all [eq_comm]

include hl in
theorem decode_opAND (h : fieldOpcode w = c.opAND) : decode c w = .ok (decodeAnd w) := by
  have hd := hl.opcodes_nodup
  simp only [Config.opcodes, List.nodup_cons, List.mem_cons, List.not_mem_nil, not_or, or_false] at hd
  simp only [decode, h]
  simp_all [eq_comm]

include hl in
theorem decode_opLDR (h : fieldOpcode w = c.opLDR) : decode c w = .ok (.ldr (fieldR0 w) (fieldR1 w) (fieldOff6 w)) := by
  have hd := hl.opcodes_nodup
  simp only [Config.opcodes, List.nodup_cons, List.mem_cons, List.not_mem_nil, not_or, or_false] at hd
  simp only [decode, h]
  simp_all [eq_comm]

include hl in
theorem decode_opSTR (h : fieldOpcode w = c.opSTR) : decode c w = .ok (.str (fieldR0 w) (fieldR1 w) (fieldOff6 w)) := by
  have hd := hl.opcodes_nodup
  simp only [Config.opcodes, List.nodup_cons, List.mem_cons, List.not_mem_nil, not_or, or_false] at hd
  simp only [decode, h]
  simp_all [eq_comm]

include hl in
theorem decode_opRTI (h : fieldOpcode w = c.opRTI) : decode c w = .ok (.rti (w.extractLsb' 0 12)) := by
  have hd := hl.opcodes_nodup
  simp only [Config.opcodes, List.nodup_cons, List.mem_cons, List.not_mem_nil, not_or, or_false] at hd
  simp only [decode, h]
  simp_all [eq_comm]

include hl in
theorem decode_opNOT (h : fieldOpcode w = c.opNOT) : decode c w = .ok (.not (fieldR0 w) (fieldR1 w) (w.extractLsb' 0 6)) := by
  have hd := hl.opcodes_nodup
  simp only [Config.opcodes, List.nodup_cons, List.mem_cons, List.not_mem_nil, not_or, or_false] at hd
  simp only [decode, h]
  simp_all [eq_comm]

include hl in
theorem decode_opLDI (h : fieldOpcode w = c.opLDI) : decode c w = .ok (.ldi (fieldR0 w) (fieldOff9 w)) := by
  have hd := hl.opcodes_nodup
  simp only [Config.opcodes, List.nodup_cons, List.mem_cons, List.not_mem_nil, not_or, or_false] at hd
  simp only [decode, h]
  simp_all [eq_comm]

include hl in
theorem decode_opSTI (h : fieldOpcode w = c.opSTI) : decode c w = .ok (.sti (fieldR0 w) (fieldOff9 w)) := by
  have hd := hl.opcodes_nodup
  simp only [Config.opcodes, List.nodup_cons, List.mem_cons, List.not_mem_nil, not_or, or_false] at hd
  simp only [decode, h]
  simp_all [eq_comm]

include hl in
theorem decode_opJMP (h : fieldOpcode w = c.opJMP) : decode c w = .ok (.jmp (w.extractLsb' 9 3) (fieldR1 w) (w.extractLsb' 0 6)) := by
  have hd := hl.opcodes_nodup
  simp only [Config.opcodes, List.nodup_cons, List.mem_cons, List.not_mem_nil, not_or, or_false] at hd
  simp only [decode, h]
  simp_all [eq_comm]

include hl in
theorem decode_opRES (h : fieldOpcode w = c.opRES) : decode c w = .ok (.res (w.extractLsb' 0 12)) := by
  have hd := hl.opcodes_nodup
  simp only [Config.opcodes, List.nodup_cons, List.mem_cons, List.not_mem_nil, not_or, or_false] at hd
  simp only [decode, h]
  simp_all [eq_comm]

include hl in
theorem decode_opLEA (h : fieldOpcode w = c.opLEA) : decode c w = .ok (.lea (fieldR0 w) (fieldOff9 w)) := by
  have hd := hl.opcodes_nodup
  simp only [Config.opcodes, List.nodup_cons, List.mem_cons, List.not_mem_nil, not_or, or_false] at hd
  simp only [decode, h]
  simp_all [eq_comm]

include hl in
theorem decode_opTRAP (h : fieldOpcode w = c.opTRAP) : decode c w = .ok (decodeTrap w) := by
  have hd := hl.opcodes_nodup
  simp only [Config.opcodes, List.nodup_cons, List.mem_cons, List.not_mem_nil, not_or, or_false] at hd
  simp only [decode, h]
  simp_all [eq_comm]

end

end Sys2Proof
end

