-- ==== Sys2Proof/Laws/Memory.lean ====
section
/-! SUPPORT. The laws of memory: a read after a write (20_memory.md R35, R44), the canonical form kept by every
operation, and equal memories being equal data. -/

namespace Sys2Proof.Machine.Memory

theorem find_filter_self (cells : List (Nat × Word)) (a : Nat) :
    find (cells.filter (fun cell => cell.1 != a)) a = unlisted := by
  induction cells with
  | nil => rfl
  | cons cell rest ih =>
    obtain ⟨k, v⟩ := cell
    by_cases h : k = a <;> simp [find, h, ih]

theorem find_filter_ne (cells : List (Nat × Word)) {a b : Nat} (h : b ≠ a) :
    find (cells.filter (fun cell => cell.1 != a)) b = find cells b := by
  induction cells with
  | nil => rfl
  | cons cell rest ih =>
    obtain ⟨k, v⟩ := cell
    by_cases hk : k = a
    · subst hk
      simp [find, ih, h.symm]
    · simp [find, hk, ih]

theorem find_insert (a b : Nat) (v : Word) (cells : List (Nat × Word)) (h : find cells a = unlisted ∨ a ≠ b)
    (hne : ∀ cell ∈ cells, cell.1 ≠ a) :
    find (insert a v cells) b = if a = b then v else find cells b := by
  induction cells with
  | nil => rfl
  | cons cell rest ih =>
    obtain ⟨k, w⟩ := cell
    have hk : k ≠ a := hne (k, w) (by simp)
    unfold insert
    split
    · rfl
    · have hrest : find rest a = unlisted ∨ a ≠ b := by
        rcases h with h | h
        · exact Or.inl (by simpa [find, hk] using h)
        · exact Or.inr h
      have := ih hrest (fun c hc => hne c (by simp [hc]))
      by_cases hab : a = b
      · subst hab
        simp_all [find]
      · by_cases hkb : k = b <;> simp_all [find]

/-- A cell reads as it was last written; every other cell as before. -/
theorem read_write (m : Memory) (a b v : Word) : (m.write a v).read b = if a = b then v else m.read b := by
  unfold write read
  by_cases hv : v = unlisted
  · subst hv
    by_cases hab : a = b
    · subst hab
      simp [find_filter_self]
    · have : b.toNat ≠ a.toNat := fun e => hab (BitVec.eq_of_toNat_eq e.symm)
      simp [hab, find_filter_ne _ this]
  · simp only [hv, if_false]
    rw [find_insert _ _ _ _ (Or.inl (find_filter_self _ _)) (by simp)]
    by_cases hab : a = b
    · simp [hab]
    · have : b.toNat ≠ a.toNat := fun e => hab (BitVec.eq_of_toNat_eq e.symm)
      simp [hab, this.symm, find_filter_ne _ this]

@[simp] theorem read_write_same (m : Memory) (a v : Word) : (m.write a v).read a = v := by
  simp [read_write]

theorem read_write_of_ne (m : Memory) {a b : Word} (h : b ≠ a) (v : Word) : (m.write a v).read b = m.read b := by
  simp [read_write, h.symm]

/-! ### The canonical form -/

theorem rising_mono {low low' : Nat} {cells : List (Nat × Word)} (h : rising low cells = true) (hl : low' ≤ low) :
    rising low' cells = true := by
  cases cells with
  | nil => rfl
  | cons cell rest =>
    obtain ⟨k, v⟩ := cell
    simp [rising] at h ⊢
    exact ⟨⟨⟨by omega, h.1.1.2⟩, h.1.2⟩, h.2⟩

theorem rising_filter {low : Nat} {cells : List (Nat × Word)} (p : Nat × Word → Bool) (h : rising low cells = true) :
    rising low (cells.filter p) = true := by
  induction cells generalizing low with
  | nil => rfl
  | cons cell rest ih =>
    obtain ⟨k, v⟩ := cell
    simp [rising] at h
    by_cases hp : p (k, v) = true
    · simp [hp, rising, h, ih h.2]
    · simp [hp]
      exact rising_mono (ih h.2) (by omega)

theorem rising_insert {low a : Nat} {v : Word} {cells : List (Nat × Word)} (h : rising low cells = true)
    (hlow : low ≤ a) (ha : a < 65536) (hv : v ≠ unlisted) (hne : ∀ cell ∈ cells, cell.1 ≠ a) :
    rising low (insert a v cells) = true := by
  induction cells generalizing low with
  | nil => simp [insert, rising, hlow, ha, hv]
  | cons cell rest ih =>
    obtain ⟨k, w⟩ := cell
    have hk : k ≠ a := hne (k, w) (by simp)
    simp [rising] at h
    unfold insert
    split
    · simp [rising, hlow, ha, hv, h]
      omega
    · simp [rising, h]
      exact ih h.2 (by omega) (fun c hc => hne c (by simp [hc]))

/-- A write keeps the canonical form. -/
theorem wf_write {m : Memory} (h : m.wf = true) (a v : Word) : (m.write a v).wf = true := by
  unfold wf write
  by_cases hv : v = unlisted
  · simp only [hv, if_true]
    exact rising_filter _ h
  · simp only [hv, if_false]
    exact rising_insert (rising_filter _ h) (Nat.zero_le _) a.isLt hv (by simp)

theorem wf_empty : wf ⟨[]⟩ = true := rfl

theorem find_of_rising {low a : Nat} {cells : List (Nat × Word)} (h : rising low cells = true) (ha : a < low) :
    find cells a = unlisted := by
  induction cells generalizing low with
  | nil => rfl
  | cons cell rest ih =>
    obtain ⟨k, v⟩ := cell
    simp [rising] at h
    have hk : k ≠ a := by omega
    simp [find, hk]
    exact ih h.2 (by omega)

theorem cells_eq_of_find_eq {low : Nat} {l r : List (Nat × Word)} (hl : rising low l = true) (hr : rising low r = true)
    (h : ∀ a, a < 65536 → find l a = find r a) : l = r := by
  induction l generalizing low r with
  | nil =>
    cases r with
    | nil => rfl
    | cons cell rest =>
      obtain ⟨k, v⟩ := cell
      simp [rising] at hr
      have := h k hr.1.1.2
      simp [find] at this
      exact absurd this.symm hr.1.2
  | cons cell rest ih =>
    obtain ⟨k, v⟩ := cell
    simp [rising] at hl
    cases r with
    | nil =>
      have := h k hl.1.1.2
      simp [find] at this
      exact absurd this hl.1.2
    | cons cell' rest' =>
      obtain ⟨k', v'⟩ := cell'
      simp [rising] at hr
      rcases Nat.lt_trichotomy k k' with hlt | heq | hgt
      · have := h k hl.1.1.2
        have hk' : k' ≠ k := by omega
        simp [find, hk', find_of_rising hr.2 (show k < k' + 1 by omega)] at this
        exact absurd this hl.1.2
      · subst heq
        have hv : v = v' := by simpa [find] using h k hl.1.1.2
        subst hv
        rw [ih hl.2 hr.2]
        intro a ha
        by_cases hka : k = a
        · subst hka
          rw [find_of_rising hl.2 (Nat.lt_succ_self _), find_of_rising hr.2 (Nat.lt_succ_self _)]
        · simpa [find, hka] using h a ha
      · have := h k' hr.1.1.2
        have hk : k ≠ k' := by omega
        simp [find, hk, find_of_rising hl.2 (show k' < k + 1 by omega)] at this
        exact absurd this.symm hr.1.2

end Sys2Proof.Machine.Memory
end

