-- ==== Sys2Proof/Laws/State.lean ====
section
/-! SUPPORT. One lemma for each field and each update of the state, all true by unfolding, so that no later proof opens
a record update; and the update that writes back what is there. -/

namespace Sys2Proof.Machine.State

@[simp] theorem setX_x (s : State) (v : Vector Word 8) : (s.setX v).x = v := rfl
@[simp] theorem setX_pc (s : State) (v : Vector Word 8) : (s.setX v).pc = s.pc := rfl
@[simp] theorem setX_cond (s : State) (v : Vector Word 8) : (s.setX v).cond = s.cond := rfl
@[simp] theorem setX_run (s : State) (v : Vector Word 8) : (s.setX v).run = s.run := rfl
@[simp] theorem setX_mem (s : State) (v : Vector Word 8) : (s.setX v).mem = s.mem := rfl
@[simp] theorem setX_env (s : State) (v : Vector Word 8) : (s.setX v).env = s.env := rfl
@[simp] theorem setX_cfg (s : State) (v : Vector Word 8) : (s.setX v).cfg = s.cfg := rfl
@[simp] theorem setX_setX (s : State) (v w : Vector Word 8) : (s.setX v).setX w = s.setX w := rfl
@[simp] theorem setX_self (s : State) : s.setX s.x = s := rfl

@[simp] theorem setPc_pc (s : State) (v : Word) : (s.setPc v).pc = v := rfl
@[simp] theorem setPc_x (s : State) (v : Word) : (s.setPc v).x = s.x := rfl
@[simp] theorem setPc_cond (s : State) (v : Word) : (s.setPc v).cond = s.cond := rfl
@[simp] theorem setPc_run (s : State) (v : Word) : (s.setPc v).run = s.run := rfl
@[simp] theorem setPc_mem (s : State) (v : Word) : (s.setPc v).mem = s.mem := rfl
@[simp] theorem setPc_env (s : State) (v : Word) : (s.setPc v).env = s.env := rfl
@[simp] theorem setPc_cfg (s : State) (v : Word) : (s.setPc v).cfg = s.cfg := rfl
@[simp] theorem setPc_setPc (s : State) (v w : Word) : (s.setPc v).setPc w = s.setPc w := rfl
@[simp] theorem setPc_self (s : State) : s.setPc s.pc = s := rfl

@[simp] theorem setCond_cond (s : State) (v : BitVec 3) : (s.setCond v).cond = v := rfl
@[simp] theorem setCond_x (s : State) (v : BitVec 3) : (s.setCond v).x = s.x := rfl
@[simp] theorem setCond_pc (s : State) (v : BitVec 3) : (s.setCond v).pc = s.pc := rfl
@[simp] theorem setCond_run (s : State) (v : BitVec 3) : (s.setCond v).run = s.run := rfl
@[simp] theorem setCond_mem (s : State) (v : BitVec 3) : (s.setCond v).mem = s.mem := rfl
@[simp] theorem setCond_env (s : State) (v : BitVec 3) : (s.setCond v).env = s.env := rfl
@[simp] theorem setCond_cfg (s : State) (v : BitVec 3) : (s.setCond v).cfg = s.cfg := rfl
@[simp] theorem setCond_setCond (s : State) (v w : BitVec 3) : (s.setCond v).setCond w = s.setCond w := rfl
@[simp] theorem setCond_self (s : State) : s.setCond s.cond = s := rfl

@[simp] theorem setRun_run (s : State) (v : RunState) : (s.setRun v).run = v := rfl
@[simp] theorem setRun_x (s : State) (v : RunState) : (s.setRun v).x = s.x := rfl
@[simp] theorem setRun_pc (s : State) (v : RunState) : (s.setRun v).pc = s.pc := rfl
@[simp] theorem setRun_cond (s : State) (v : RunState) : (s.setRun v).cond = s.cond := rfl
@[simp] theorem setRun_mem (s : State) (v : RunState) : (s.setRun v).mem = s.mem := rfl
@[simp] theorem setRun_env (s : State) (v : RunState) : (s.setRun v).env = s.env := rfl
@[simp] theorem setRun_cfg (s : State) (v : RunState) : (s.setRun v).cfg = s.cfg := rfl
@[simp] theorem setRun_setRun (s : State) (v w : RunState) : (s.setRun v).setRun w = s.setRun w := rfl
@[simp] theorem setRun_self (s : State) : s.setRun s.run = s := rfl

@[simp] theorem setMem_mem (s : State) (v : Memory) : (s.setMem v).mem = v := rfl
@[simp] theorem setMem_x (s : State) (v : Memory) : (s.setMem v).x = s.x := rfl
@[simp] theorem setMem_pc (s : State) (v : Memory) : (s.setMem v).pc = s.pc := rfl
@[simp] theorem setMem_cond (s : State) (v : Memory) : (s.setMem v).cond = s.cond := rfl
@[simp] theorem setMem_run (s : State) (v : Memory) : (s.setMem v).run = s.run := rfl
@[simp] theorem setMem_env (s : State) (v : Memory) : (s.setMem v).env = s.env := rfl
@[simp] theorem setMem_cfg (s : State) (v : Memory) : (s.setMem v).cfg = s.cfg := rfl
@[simp] theorem setMem_setMem (s : State) (v w : Memory) : (s.setMem v).setMem w = s.setMem w := rfl
@[simp] theorem setMem_self (s : State) : s.setMem s.mem = s := rfl

@[simp] theorem setEnv_env (s : State) (v : Env) : (s.setEnv v).env = v := rfl
@[simp] theorem setEnv_x (s : State) (v : Env) : (s.setEnv v).x = s.x := rfl
@[simp] theorem setEnv_pc (s : State) (v : Env) : (s.setEnv v).pc = s.pc := rfl
@[simp] theorem setEnv_cond (s : State) (v : Env) : (s.setEnv v).cond = s.cond := rfl
@[simp] theorem setEnv_run (s : State) (v : Env) : (s.setEnv v).run = s.run := rfl
@[simp] theorem setEnv_mem (s : State) (v : Env) : (s.setEnv v).mem = s.mem := rfl
@[simp] theorem setEnv_cfg (s : State) (v : Env) : (s.setEnv v).cfg = s.cfg := rfl
@[simp] theorem setEnv_setEnv (s : State) (v w : Env) : (s.setEnv v).setEnv w = s.setEnv w := rfl
@[simp] theorem setEnv_self (s : State) : s.setEnv s.env = s := rfl
/-! Reading a register sees only the register file. -/

@[simp] theorem reg_setPc (s : State) (v : Word) (i : RegIdx) : (s.setPc v).reg i = s.reg i := rfl
@[simp] theorem reg_setCond (s : State) (v : BitVec 3) (i : RegIdx) : (s.setCond v).reg i = s.reg i := rfl
@[simp] theorem reg_setRun (s : State) (v : RunState) (i : RegIdx) : (s.setRun v).reg i = s.reg i := rfl
@[simp] theorem reg_setMem (s : State) (v : Memory) (i : RegIdx) : (s.setMem v).reg i = s.reg i := rfl
@[simp] theorem reg_setEnv (s : State) (v : Env) (i : RegIdx) : (s.setEnv v).reg i = s.reg i := rfl

/-! Writing a register leaves every other field alone. -/

@[simp] theorem setReg_pc (s : State) (i : RegIdx) (v : Word) : (s.setReg i v).pc = s.pc := rfl
@[simp] theorem setReg_cond (s : State) (i : RegIdx) (v : Word) : (s.setReg i v).cond = s.cond := rfl
@[simp] theorem setReg_run (s : State) (i : RegIdx) (v : Word) : (s.setReg i v).run = s.run := rfl
@[simp] theorem setReg_mem (s : State) (i : RegIdx) (v : Word) : (s.setReg i v).mem = s.mem := rfl
@[simp] theorem setReg_env (s : State) (i : RegIdx) (v : Word) : (s.setReg i v).env = s.env := rfl
@[simp] theorem setReg_cfg (s : State) (i : RegIdx) (v : Word) : (s.setReg i v).cfg = s.cfg := rfl

/-- A register reads as it was written, and a write leaves the other registers alone. -/
theorem reg_setReg (s : State) (i j : RegIdx) (v : Word) :
    (s.setReg i v).reg j = if i = j then v else s.reg j := by
  simp [reg, setReg, Vector.getElem_set, BitVec.toNat_inj]

@[simp] theorem reg_setReg_same (s : State) (i : RegIdx) (v : Word) : (s.setReg i v).reg i = v := by
  simp [reg_setReg]

theorem reg_setReg_of_ne (s : State) {i j : RegIdx} (h : j ≠ i) (v : Word) :
    (s.setReg i v).reg j = s.reg j := by
  simp [reg_setReg, h.symm]

/-- Two states are equal when every field is; the registers one by one. -/
theorem ext_of_fields {s t : State} (hx : ∀ i, s.reg i = t.reg i) (hpc : s.pc = t.pc) (hcond : s.cond = t.cond)
    (hrun : s.run = t.run) (hmem : s.mem = t.mem) (henv : s.env = t.env) (hcfg : s.cfg = t.cfg) : s = t := by
  have hvec : s.x = t.x := by
    apply Vector.ext
    intro n hn
    have := hx (BitVec.ofNat 3 n)
    simpa [reg, Nat.mod_eq_of_lt hn] using this
  cases s
  cases t
  simp_all

end Sys2Proof.Machine.State
end

