-- ==== Sys2Proof/Laws/Ops.lean ====
section
/-! SUPPORT. For each shared operation, what it can do, said once: the transactions, the two memory primitives, the
flags, the trap's entry. -/

namespace Sys2Proof.Machine

/-! ### KbdPoll touches the environment only, and adds one answered poll to the input trace -/

theorem kbdPoll_eq (s : State) : (kbdPoll s).2 = s.setEnv (kbdPoll s).2.env := by
  unfold kbdPoll
  cases s.env.kbdAnswers <;> rfl

theorem kbdPoll_inputs (s : State) : (kbdPoll s).2.env.inputs = s.env.inputs ++ [.kbdPoll (kbdPoll s).1] := by
  unfold kbdPoll
  cases s.env.kbdAnswers <;> rfl

theorem kbdPoll_output (s : State) : (kbdPoll s).2.env.output = s.env.output := by
  unfold kbdPoll
  cases s.env.kbdAnswers <;> rfl

theorem kbdPoll_listed (s : State) {k : Option Byte} {rest : List (Option Byte)} (h : s.env.kbdAnswers = k :: rest) :
    kbdPoll s = (k, s.setEnv { s.env with kbdAnswers := rest, inputs := s.env.inputs ++ [.kbdPoll k] }) := by
  simp [kbdPoll, h]

@[simp] theorem kbdPoll_x (s : State) : (kbdPoll s).2.x = s.x := by rw [kbdPoll_eq]; rfl
@[simp] theorem kbdPoll_pc (s : State) : (kbdPoll s).2.pc = s.pc := by rw [kbdPoll_eq]; rfl
@[simp] theorem kbdPoll_cond (s : State) : (kbdPoll s).2.cond = s.cond := by rw [kbdPoll_eq]; rfl
@[simp] theorem kbdPoll_run (s : State) : (kbdPoll s).2.run = s.run := by rw [kbdPoll_eq]; rfl
@[simp] theorem kbdPoll_mem (s : State) : (kbdPoll s).2.mem = s.mem := by rw [kbdPoll_eq]; rfl
@[simp] theorem kbdPoll_cfg (s : State) : (kbdPoll s).2.cfg = s.cfg := by rw [kbdPoll_eq]; rfl

/-! ### The free poll answers: a draw brings a `none` or a key 0, unless keys other than 0 come for ever -/

theorem keysForever_succ {n : Nat} (h : keysForever n = true) : keysForever (n + 1) = true := by
  unfold keysForever at *
  split at h
  · simp only [decide_eq_true_eq] at *
    omega
  · cases h

theorem unlistedPolls_forever {n : Nat} (h : keysForever n = true) : ∃ b, b ≠ 0#8 ∧ unlistedPolls n = (some b, []) := by
  refine ⟨if Config.freeKbdKey n = 0#8 then 1#8 else Config.freeKbdKey n, ?_, by simp [unlistedPolls, h]⟩
  split
  · decide
  · assumption

theorem unlistedPolls_last {n : Nat} (h : keysForever n = false) :
    ∃ k ∈ (unlistedPolls n).1 :: (unlistedPolls n).2, k = none ∨ k = some 0#8 := by
  refine ⟨if (Config.freeKbdStretch n).2 then some 0#8 else none, ?_, by split <;> simp⟩
  simp only [unlistedPolls, h, Bool.false_eq_true, if_false]
  split <;> simp

/-! ### CharIn: if a byte arrives, the environment alone has moved on -/

theorem charIn_some {s t : State} {b : Byte} (h : charIn s = some (b, t)) :
    t = s.setEnv t.env ∧ t.env.output = s.env.output ∧ t.env.inputs = s.env.inputs ++ [.charIn b] := by
  unfold charIn at h
  split at h
  · cases h
    exact ⟨rfl, rfl, rfl⟩
  · split at h
    · cases h
      exact ⟨rfl, rfl, rfl⟩
    · cases h

theorem charIn_listed (s : State) {b : Byte} {rest : List Byte} (h : s.env.charBytes = b :: rest) :
    charIn s =
      some (b, s.setEnv { s.env with charBytes := rest, inputs := s.env.inputs ++ [.charIn b] }) := by
  simp [charIn, h]

/-! ### CharOut adds to the output trace -/

@[simp] theorem charOut_output (v : Word) (s : State) : (charOut v s).env.output = s.env.output ++ [v] := rfl
@[simp] theorem charOut_inputs (v : Word) (s : State) : (charOut v s).env.inputs = s.env.inputs := rfl
@[simp] theorem charOut_kbdAnswers (v : Word) (s : State) : (charOut v s).env.kbdAnswers = s.env.kbdAnswers := rfl
@[simp] theorem charOut_charBytes (v : Word) (s : State) : (charOut v s).env.charBytes = s.env.charBytes := rfl
@[simp] theorem charOut_draws (v : Word) (s : State) : (charOut v s).env.draws = s.env.draws := rfl
@[simp] theorem charOut_x (v : Word) (s : State) : (charOut v s).x = s.x := rfl
@[simp] theorem charOut_reg (v : Word) (s : State) (i : RegIdx) : (charOut v s).reg i = s.reg i := rfl
@[simp] theorem charOut_pc (v : Word) (s : State) : (charOut v s).pc = s.pc := rfl
@[simp] theorem charOut_cond (v : Word) (s : State) : (charOut v s).cond = s.cond := rfl
@[simp] theorem charOut_run (v : Word) (s : State) : (charOut v s).run = s.run := rfl
@[simp] theorem charOut_mem (v : Word) (s : State) : (charOut v s).mem = s.mem := rfl
@[simp] theorem charOut_cfg (v : Word) (s : State) : (charOut v s).cfg = s.cfg := rfl

theorem charOutAll_eq (codes : List Word) (s : State) :
    charOutAll codes s = s.setEnv { s.env with output := s.env.output ++ codes } := by
  induction codes generalizing s with
  | nil =>
    simp only [charOutAll, List.append_nil]
    rfl
  | cons v rest ih =>
    simp only [charOutAll, ih]
    simp [charOut]

/-! ### MemRead -/

theorem memRead_of_ne {s : State} {a : Word} (h : a ≠ s.cfg.kbsrAddr) : memRead a s = (s.mem.read a, s) := by
  simp [memRead, h]

theorem memRead_status (s : State) :
    memRead s.cfg.kbsrAddr s =
      ((storePoll (kbdPoll s).1 (kbdPoll s).2).mem.read s.cfg.kbsrAddr, storePoll (kbdPoll s).1 (kbdPoll s).2) := by
  simp [memRead]

@[simp] theorem storePoll_x (k : Option Byte) (s : State) : (storePoll k s).x = s.x := by cases k <;> rfl
@[simp] theorem storePoll_pc (k : Option Byte) (s : State) : (storePoll k s).pc = s.pc := by cases k <;> rfl
@[simp] theorem storePoll_cond (k : Option Byte) (s : State) : (storePoll k s).cond = s.cond := by cases k <;> rfl
@[simp] theorem storePoll_run (k : Option Byte) (s : State) : (storePoll k s).run = s.run := by cases k <;> rfl
@[simp] theorem storePoll_env (k : Option Byte) (s : State) : (storePoll k s).env = s.env := by cases k <;> rfl
@[simp] theorem storePoll_cfg (k : Option Byte) (s : State) : (storePoll k s).cfg = s.cfg := by cases k <;> rfl

theorem storePoll_wf {k : Option Byte} {s : State} (h : s.mem.wf = true) : (storePoll k s).mem.wf = true := by
  cases k <;> simp [storePoll, Memory.wf_write, h]

/-- A poll writes the two keyboard cells and no other. -/
theorem storePoll_read_of_ne {k : Option Byte} {s : State} {a : Word} (hs : a ≠ s.cfg.kbsrAddr)
    (hd : a ≠ s.cfg.kbdrAddr) : (storePoll k s).mem.read a = s.mem.read a := by
  cases k <;> simp [storePoll, Memory.read_write_of_ne, hs, hd]

section
variable (a : Word) (s : State)

@[simp] theorem memRead_x : (memRead a s).2.x = s.x := by unfold memRead; split <;> simp
@[simp] theorem memRead_pc : (memRead a s).2.pc = s.pc := by unfold memRead; split <;> simp
@[simp] theorem memRead_cond : (memRead a s).2.cond = s.cond := by unfold memRead; split <;> simp
@[simp] theorem memRead_run : (memRead a s).2.run = s.run := by unfold memRead; split <;> simp
@[simp] theorem memRead_cfg : (memRead a s).2.cfg = s.cfg := by unfold memRead; split <;> simp

@[simp] theorem memRead_reg (i : RegIdx) : (memRead a s).2.reg i = s.reg i := by simp [State.reg]

@[simp] theorem memRead_output : (memRead a s).2.env.output = s.env.output := by
  unfold memRead
  split <;> simp [kbdPoll_output]

theorem memRead_inputs : s.env.inputs <+: (memRead a s).2.env.inputs := by
  unfold memRead
  split
  · simp [kbdPoll_inputs]
  · exact List.prefix_rfl

theorem memRead_wf (h : s.mem.wf = true) : (memRead a s).2.mem.wf = true := by
  unfold memRead
  split
  · exact storePoll_wf (by simpa using h)
  · exact h

/-- A read changes no cell but the two of the keyboard. -/
theorem memRead_read_of_ne {b : Word} (hs : b ≠ s.cfg.kbsrAddr) (hd : b ≠ s.cfg.kbdrAddr) :
    (memRead a s).2.mem.read b = s.mem.read b := by
  unfold memRead
  split
  · simpa using storePoll_read_of_ne (s := (kbdPoll s).2) (by simpa using hs) (by simpa using hd)
  · rfl

end

/-! ### Flags and results -/

@[simp] theorem setcc_reg (i j : RegIdx) (s : State) : (setcc i s).reg j = s.reg j := rfl
@[simp] theorem setcc_cond (i : RegIdx) (s : State) : (setcc i s).cond = condFor s.cfg (s.reg i) := rfl

section
variable (d : RegIdx) (v : Word) (s : State)

@[simp] theorem writeResult_cond : (writeResult d v s).cond = condFor s.cfg v := by simp [writeResult]
@[simp] theorem writeResult_reg_same : (writeResult d v s).reg d = v := by simp [writeResult]
@[simp] theorem writeResult_pc : (writeResult d v s).pc = s.pc := rfl
@[simp] theorem writeResult_run : (writeResult d v s).run = s.run := rfl
@[simp] theorem writeResult_mem : (writeResult d v s).mem = s.mem := rfl
@[simp] theorem writeResult_env : (writeResult d v s).env = s.env := rfl
@[simp] theorem writeResult_cfg : (writeResult d v s).cfg = s.cfg := rfl

theorem writeResult_reg_of_ne {r : RegIdx} (h : r ≠ d) : (writeResult d v s).reg r = s.reg r := by
  simp [writeResult, State.reg_setReg_of_ne _ h]

end

theorem condFor_oneHot (c : Config) (v : Word) :
    condFor c v = c.flPos ∨ condFor c v = c.flZro ∨ condFor c v = c.flNeg := by
  unfold condFor
  split
  · simp
  · split <;> simp

theorem branchTaken_iff (nzp : BitVec 3) (s : State) : branchTaken nzp s = true ↔ nzp &&& s.cond ≠ 0#3 := by
  simp [branchTaken]

/-! ### The trap's entry -/

section
variable (s : State)

@[simp] theorem trapEntry_pc : (trapEntry s).pc = s.pc := rfl
@[simp] theorem trapEntry_cond : (trapEntry s).cond = s.cond := rfl
@[simp] theorem trapEntry_run : (trapEntry s).run = s.run := rfl
@[simp] theorem trapEntry_mem : (trapEntry s).mem = s.mem := rfl
@[simp] theorem trapEntry_env : (trapEntry s).env = s.env := rfl
@[simp] theorem trapEntry_cfg : (trapEntry s).cfg = s.cfg := rfl
@[simp] theorem trapEntry_reg_seven : (trapEntry s).reg 7#3 = s.pc := by simp [trapEntry]

theorem trapEntry_reg_of_ne {r : RegIdx} (h : r ≠ 7#3) : (trapEntry s).reg r = s.reg r :=
  State.reg_setReg_of_ne _ h _

end

end Sys2Proof.Machine
end

