-- ==== Sys2Proof/Laws/PerInstr.lean ====
section
/-! SUPPORT. Statements made of each instruction as syntax, one lemma per constructor. -/

namespace Sys2Proof.Laws.OpcodeField

/-- The opcode number of an instruction: the parameter its mnemonic names (30_encoding.md R52). -/
def opcodeNumber (c : Config) : Instr → BitVec 4
  | .add _ _ _ _ => c.opADD
  | .addi _ _ _ => c.opADD
  | .and _ _ _ _ => c.opAND
  | .andi _ _ _ => c.opAND
  | .not _ _ _ => c.opNOT
  | .br _ _ => c.opBR
  | .jmp _ _ _ => c.opJMP
  | .jsr _ => c.opJSR
  | .jsrr _ _ _ => c.opJSR
  | .ld _ _ => c.opLD
  | .ldi _ _ => c.opLDI
  | .ldr _ _ _ => c.opLDR
  | .lea _ _ => c.opLEA
  | .st _ _ => c.opST
  | .sti _ _ => c.opSTI
  | .str _ _ _ => c.opSTR
  | .getc _ => c.opTRAP
  | .out _ => c.opTRAP
  | .puts _ => c.opTRAP
  | .inp _ => c.opTRAP
  | .putsp _ => c.opTRAP
  | .halt _ => c.opTRAP
  | .trapUndefined _ _ => c.opTRAP
  | .rti _ => c.opRTI
  | .res _ => c.opRES

/-- The opcode stands in bits 15:12 of the word (30_encoding.md R52, R55). -/
def Statement (i : Instr) : Prop := ∀ c : Config, fieldOpcode (encode c i) = opcodeNumber c i

/-- The opcode field is known by its four bits. -/
theorem fieldOpcode_eq {w : Word} {op : BitVec 4} (h : w.getLsbD 12 = op.getLsbD 0 ∧ w.getLsbD 13 = op.getLsbD 1 ∧
    w.getLsbD 14 = op.getLsbD 2 ∧ w.getLsbD 15 = op.getLsbD 3) : fieldOpcode w = op := by
  apply BitVec.eq_of_getLsbD_eq
  intro j hj
  obtain rfl | rfl | rfl | rfl : j = 0 ∨ j = 1 ∨ j = 2 ∨ j = 3 := by omega
  all_goals simp only [fieldOpcode, BitVec.getLsbD_extractLsb', hj, decide_true, Bool.true_and, Nat.add_zero,
    Nat.reduceAdd, h]

theorem add (d a : RegIdx) (u : BitVec 2) (b : RegIdx) : Statement (.add d a u b) := fun _ =>
  fieldOpcode_eq (by simp only [encode, opcodeNumber, BitVec.getLsbD_append]; simp)

theorem addi (d a : RegIdx) (imm : BitVec 5) : Statement (.addi d a imm) := fun _ =>
  fieldOpcode_eq (by simp only [encode, opcodeNumber, BitVec.getLsbD_append]; simp)

theorem and (d a : RegIdx) (u : BitVec 2) (b : RegIdx) : Statement (.and d a u b) := fun _ =>
  fieldOpcode_eq (by simp only [encode, opcodeNumber, BitVec.getLsbD_append]; simp)

theorem andi (d a : RegIdx) (imm : BitVec 5) : Statement (.andi d a imm) := fun _ =>
  fieldOpcode_eq (by simp only [encode, opcodeNumber, BitVec.getLsbD_append]; simp)

theorem not (d a : RegIdx) (u : BitVec 6) : Statement (.not d a u) := fun _ =>
  fieldOpcode_eq (by simp only [encode, opcodeNumber, BitVec.getLsbD_append]; simp)

theorem br (nzp : BitVec 3) (off : BitVec 9) : Statement (.br nzp off) := fun _ =>
  fieldOpcode_eq (by simp only [encode, opcodeNumber, BitVec.getLsbD_append]; simp)

theorem jmp (u : BitVec 3) (base : RegIdx) (v : BitVec 6) : Statement (.jmp u base v) := fun _ =>
  fieldOpcode_eq (by simp only [encode, opcodeNumber, BitVec.getLsbD_append]; simp)

theorem jsr (off : BitVec 11) : Statement (.jsr off) := fun _ =>
  fieldOpcode_eq (by simp only [encode, opcodeNumber, BitVec.getLsbD_append]; simp)

theorem jsrr (u : BitVec 2) (base : RegIdx) (v : BitVec 6) : Statement (.jsrr u base v) := fun _ =>
  fieldOpcode_eq (by simp only [encode, opcodeNumber, BitVec.getLsbD_append]; simp)

theorem ld (d : RegIdx) (off : BitVec 9) : Statement (.ld d off) := fun _ =>
  fieldOpcode_eq (by simp only [encode, opcodeNumber, BitVec.getLsbD_append]; simp)

theorem ldi (d : RegIdx) (off : BitVec 9) : Statement (.ldi d off) := fun _ =>
  fieldOpcode_eq (by simp only [encode, opcodeNumber, BitVec.getLsbD_append]; simp)

theorem ldr (d base : RegIdx) (off : BitVec 6) : Statement (.ldr d base off) := fun _ =>
  fieldOpcode_eq (by simp only [encode, opcodeNumber, BitVec.getLsbD_append]; simp)

theorem lea (d : RegIdx) (off : BitVec 9) : Statement (.lea d off) := fun _ =>
  fieldOpcode_eq (by simp only [encode, opcodeNumber, BitVec.getLsbD_append]; simp)

theorem st (r : RegIdx) (off : BitVec 9) : Statement (.st r off) := fun _ =>
  fieldOpcode_eq (by simp only [encode, opcodeNumber, BitVec.getLsbD_append]; simp)

theorem sti (r : RegIdx) (off : BitVec 9) : Statement (.sti r off) := fun _ =>
  fieldOpcode_eq (by simp only [encode, opcodeNumber, BitVec.getLsbD_append]; simp)

theorem str (r base : RegIdx) (off : BitVec 6) : Statement (.str r base off) := fun _ =>
  fieldOpcode_eq (by simp only [encode, opcodeNumber, BitVec.getLsbD_append]; simp)

theorem getc (u : BitVec 4) : Statement (.getc u) := fun _ =>
  fieldOpcode_eq (by simp only [encode, opcodeNumber, BitVec.getLsbD_append]; simp)

theorem out (u : BitVec 4) : Statement (.out u) := fun _ =>
  fieldOpcode_eq (by simp only [encode, opcodeNumber, BitVec.getLsbD_append]; simp)

theorem puts (u : BitVec 4) : Statement (.puts u) := fun _ =>
  fieldOpcode_eq (by simp only [encode, opcodeNumber, BitVec.getLsbD_append]; simp)

theorem inp (u : BitVec 4) : Statement (.inp u) := fun _ =>
  fieldOpcode_eq (by simp only [encode, opcodeNumber, BitVec.getLsbD_append]; simp)

theorem putsp (u : BitVec 4) : Statement (.putsp u) := fun _ =>
  fieldOpcode_eq (by simp only [encode, opcodeNumber, BitVec.getLsbD_append]; simp)

theorem halt (u : BitVec 4) : Statement (.halt u) := fun _ =>
  fieldOpcode_eq (by simp only [encode, opcodeNumber, BitVec.getLsbD_append]; simp)

theorem trapUndefined (u : BitVec 4) (vec : Byte) : Statement (.trapUndefined u vec) := fun _ =>
  fieldOpcode_eq (by simp only [encode, opcodeNumber, BitVec.getLsbD_append]; simp)

theorem rti (u : BitVec 12) : Statement (.rti u) := fun _ =>
  fieldOpcode_eq (by simp only [encode, opcodeNumber, BitVec.getLsbD_append]; simp)

theorem res (u : BitVec 12) : Statement (.res u) := fun _ =>
  fieldOpcode_eq (by simp only [encode, opcodeNumber, BitVec.getLsbD_append]; simp)

end Sys2Proof.Laws.OpcodeField
end

