-- ==== Sys2Proof/Laws/Services.lean ====
section
/-! SUPPORT. What reads, transactions and the string services can change: the environment, and by a poll the two
keyboard cells; nothing else. -/

namespace Sys2Proof.Machine

/-! ### The loop of PUTS in parts: what it does after some reads, it does from where those reads left it -/

theorem putsLoop_add (m n : Nat) (a : Word) (s : State) :
    putsLoop (m + n) a s =
      match putsLoop m a s with
      | .refused (.serviceNotEnded reached) => putsLoop n (a + BitVec.ofNat 16 m) reached
      | ended => ended := by
  induction m generalizing a s with
  | zero => simp [putsLoop]
  | succ m ih =>
    have ha : a + BitVec.ofNat 16 (m + 1) = a + 1 + BitVec.ofNat 16 m := by bv_omega
    rw [Nat.add_right_comm]
    simp only [putsLoop, ha]
    split
    · rfl
    · exact ih _ _

theorem putsPasses_eq (p : Nat) (a : Word) (s : State) : putsPasses p a s = putsLoop (passReads * p) a s := by
  induction p generalizing s with
  | zero => rfl
  | succ p ih =>
    have ha : a + BitVec.ofNat 16 passReads = a := by simp [passReads]
    rw [Nat.mul_succ, Nat.add_comm (passReads * p), putsLoop_add, ha]
    simp only [putsPasses]
    rcases putsLoop passReads a s with t | f | (_ | _ | reached)
    case refused.serviceNotEnded => exact ih reached
    all_goals rfl

/-- `t` is `s` but for the environment, whose traces have at most grown, and for what polls wrote into the keyboard
cells. -/
structure TalkedOnly (s t : State) : Prop where
  x : t.x = s.x
  pc : t.pc = s.pc
  cond : t.cond = s.cond
  run : t.run = s.run
  cfg : t.cfg = s.cfg
  wf : s.mem.wf = true → t.mem.wf = true
  cells : ∀ a, a ≠ s.cfg.kbsrAddr → a ≠ s.cfg.kbdrAddr → t.mem.read a = s.mem.read a
  output : s.env.output <+: t.env.output
  inputs : s.env.inputs <+: t.env.inputs

namespace TalkedOnly

theorem refl (s : State) : TalkedOnly s s :=
  ⟨rfl, rfl, rfl, rfl, rfl, id, fun _ _ _ => rfl, List.prefix_rfl, List.prefix_rfl⟩

theorem trans {s t u : State} (h : TalkedOnly s t) (k : TalkedOnly t u) : TalkedOnly s u where
  x := k.x.trans h.x
  pc := k.pc.trans h.pc
  cond := k.cond.trans h.cond
  run := k.run.trans h.run
  cfg := k.cfg.trans h.cfg
  wf := fun w => k.wf (h.wf w)
  cells := fun a hs hd => (k.cells a (h.cfg ▸ hs) (h.cfg ▸ hd)).trans (h.cells a hs hd)
  output := h.output.trans k.output
  inputs := h.inputs.trans k.inputs

theorem reg {s t : State} (h : TalkedOnly s t) (i : RegIdx) : t.reg i = s.reg i := by simp [State.reg, h.x]

theorem of_memRead (a : Word) (s : State) : TalkedOnly s (memRead a s).2 where
  x := memRead_x a s
  pc := memRead_pc a s
  cond := memRead_cond a s
  run := memRead_run a s
  cfg := memRead_cfg a s
  wf := memRead_wf a s
  cells := fun _ => memRead_read_of_ne a s
  output := by simp
  inputs := memRead_inputs a s

theorem of_charOutAll (codes : List Word) (s : State) : TalkedOnly s (charOutAll codes s) := by
  rw [charOutAll_eq]
  exact ⟨rfl, rfl, rfl, rfl, rfl, id, fun _ _ _ => rfl, List.prefix_append _ _, List.prefix_rfl⟩

theorem of_charOut (v : Word) (s : State) : TalkedOnly s (charOut v s) := of_charOutAll [v] s

theorem of_charIn {s t : State} {b : Byte} (h : charIn s = some (b, t)) : TalkedOnly s t := by
  obtain ⟨ht, ho, hi⟩ := charIn_some h
  rw [ht]
  refine ⟨rfl, rfl, rfl, rfl, rfl, id, fun _ _ _ => rfl, ?_, ?_⟩
  · simp [ho]
  · simp [hi]

theorem of_putsLoop {n : Nat} {a : Word} {s t : State} (h : putsLoop n a s = .next t) : TalkedOnly s t := by
  induction n generalizing a s with
  | zero => simp [putsLoop] at h
  | succ n ih =>
    simp only [putsLoop] at h
    split at h
    · cases h
      exact of_memRead a s
    · exact (of_memRead a s).trans ((of_charOut _ _).trans (ih h))

theorem of_putsPasses {n : Nat} {a : Word} {s t : State} (h : putsPasses n a s = .next t) : TalkedOnly s t :=
  of_putsLoop ((putsPasses_eq n a s).symm.trans h)

theorem of_putspLoop {n : Nat} {a : Word} {s t : State} (h : putspLoop n a s = .next t) : TalkedOnly s t := by
  induction n generalizing a s with
  | zero => simp [putspLoop] at h
  | succ n ih =>
    simp only [putspLoop] at h
    split at h
    · cases h
      exact of_memRead a s
    · split at h
      · cases h
        exact (of_memRead a s).trans (of_charOut _ _)
      · exact (of_memRead a s).trans ((of_charOut _ _).trans ((of_charOut _ _).trans (ih h)))

end TalkedOnly

/-! ### The services: the entry, then talk, then for GETC and IN the result in R0 -/

theorem execGetc_next {s t : State} (h : execGetc s = .next t) :
    ∃ b u, charIn (trapEntry s) = some (b, u) ∧ TalkedOnly (trapEntry s) u ∧ t = writeResult 0#3 (zext8 b) u := by
  simp only [execGetc] at h
  split at h
  · rename_i b u hc
    cases h
    exact ⟨b, u, hc, .of_charIn hc, rfl⟩
  · cases h

theorem execInp_next {s t : State} (h : execInp s = .next t) :
    ∃ b u, TalkedOnly (trapEntry s) u ∧ t = writeResult 0#3 (zext8 b) u := by
  simp only [execInp] at h
  split at h
  · rename_i b u hc
    cases h
    exact ⟨b, _, (TalkedOnly.of_charOutAll _ _).trans ((TalkedOnly.of_charIn hc).trans (.of_charOut _ _)), rfl⟩
  · cases h

theorem execPuts_next {s t : State} (h : execPuts s = .next t) : TalkedOnly (trapEntry s) t := .of_putsPasses h

theorem execPutsp_next {s t : State} (h : execPutsp s = .next t) : TalkedOnly (trapEntry s) t := .of_putspLoop h

end Sys2Proof.Machine
end

