-- ==== Sys2Proof/Tests/Slice0.lean ====
section
/-! SUPPORT. Tests on single steps and single words, with the expected results of 95_test_vectors.md (the section is
named at each group), and for every obligation with hypotheses a state and operands that meet them. -/

namespace Sys2Proof.Tests

open Sys2Proof.Machine

/-! ## The states of the tests -/

/-- Reset and start with the given registers, then the given cells. -/
def boot (pc : Word) (regs : List (RegIdx × Word)) (cells : List (Word × Word)) : State :=
  let withRegs := regs.foldl (fun s r => s.setReg r.1 r.2) State.reset
  (withRegs.setPc pc).setMem (cells.foldl (fun m c => m.write c.1 c.2) ⟨[]⟩)

/-- `boot` with the answers of the next polls and the bytes of the next CharIn calls. -/
def listening (keys : List (Option Byte)) (bytes : List Byte) (s : State) : State :=
  s.setEnv { s.env with kbdAnswers := keys, charBytes := bytes }

/-- The step completes, and `p` holds of the state it gives. -/
def goes (s : State) (p : State → Bool) : Bool :=
  match step s with
  | .next t => p t
  | .fault _ => false
  | .refused _ => false

def P : BitVec 3 := 0b001
def Z : BitVec 3 := 0b010
def N : BitVec 3 := 0b100

/-! ## WellFormed: an undefined-vector TRAP must not carry a service's vector (44_trap.md R111) -/

theorem test_wellFormed_refuses_getc : (Instr.trapUndefined 0 0x20).wellFormed = false := by decide
theorem test_wellFormed_refuses_out : (Instr.trapUndefined 0 0x21).wellFormed = false := by decide
theorem test_wellFormed_refuses_puts : (Instr.trapUndefined 0 0x22).wellFormed = false := by decide
theorem test_wellFormed_refuses_in : (Instr.trapUndefined 0 0x23).wellFormed = false := by decide
theorem test_wellFormed_refuses_putsp : (Instr.trapUndefined 0 0x24).wellFormed = false := by decide
theorem test_wellFormed_refuses_halt : (Instr.trapUndefined 0 0x25).wellFormed = false := by decide
theorem test_wellFormed_takes_undefined : (Instr.trapUndefined 0 0x1F).wellFormed = true ∧
    (Instr.trapUndefined 0 0x26).wellFormed = true := by decide

/-! ## Decoding: words written out from the formats of 30_encoding.md R55 -/

theorem test_decode_add : decode Config.default 0b0001_010_000_0_00_001 = .ok (.add 2 0 0 1) := by decide
theorem test_decode_addi : decode Config.default 0b0001_001_010_1_10000 = .ok (.addi 1 2 0b10000) := by decide
theorem test_decode_and : decode Config.default 0b0101_011_011_0_00_111 = .ok (.and 3 3 0 7) := by decide
theorem test_decode_andi : decode Config.default 0b0101_001_010_1_01111 = .ok (.andi 1 2 0b01111) := by decide
theorem test_decode_not : decode Config.default 0b1001_001_010_111111 = .ok (.not 1 2 0b111111) := by decide
theorem test_decode_br : decode Config.default 0b0000_100_111111110 = .ok (.br 0b100 0b111111110) := by decide
theorem test_decode_jmp : decode Config.default 0b1100_000_011_000000 = .ok (.jmp 0 3 0) := by decide
theorem test_decode_jsr : decode Config.default 0b0100_1_10000000000 = .ok (.jsr 0b10000000000) := by decide
theorem test_decode_jsrr : decode Config.default 0b0100_0_00_010_000000 = .ok (.jsrr 0 2 0) := by decide
theorem test_decode_ld : decode Config.default 0b0010_001_000000010 = .ok (.ld 1 2) := by decide
theorem test_decode_ldi : decode Config.default 0b1010_100_011111111 = .ok (.ldi 4 255) := by decide
theorem test_decode_ldr : decode Config.default 0b0110_001_010_011111 = .ok (.ldr 1 2 31) := by decide
theorem test_decode_lea : decode Config.default 0b1110_101_111111111 = .ok (.lea 5 0b111111111) := by decide
theorem test_decode_st : decode Config.default 0b0011_001_000000010 = .ok (.st 1 2) := by decide
theorem test_decode_sti : decode Config.default 0b1011_001_000000010 = .ok (.sti 1 2) := by decide
theorem test_decode_str : decode Config.default 0b0111_001_010_000011 = .ok (.str 1 2 3) := by decide
theorem test_decode_getc : decode Config.default 0b1111_1010_00100000 = .ok (.getc 0b1010) := by decide
theorem test_decode_out : decode Config.default 0b1111_0000_00100001 = .ok (.out 0) := by decide
theorem test_decode_puts : decode Config.default 0b1111_0000_00100010 = .ok (.puts 0) := by decide
theorem test_decode_in : decode Config.default 0b1111_0000_00100011 = .ok (.inp 0) := by decide
theorem test_decode_putsp : decode Config.default 0b1111_0000_00100100 = .ok (.putsp 0) := by decide
theorem test_decode_halt : decode Config.default 0b1111_0000_00100101 = .ok (.halt 0) := by decide
theorem test_decode_undefined : decode Config.default 0b1111_0000_00011111 = .ok (.trapUndefined 0 0x1F) := by decide
theorem test_decode_rti : decode Config.default 0b1000_101010111100 = .ok (.rti 0xABC) := by decide
theorem test_decode_res : decode Config.default 0b1101_111111111111 = .ok (.res 0xFFF) := by decide

/-! ## 2.1 and 2.2: sign extension and flags -/

theorem test_sext : sext 5 0b10000 = 0xFFF0 ∧ sext 5 0b01111 = 0x000F ∧ sext 9 0b100000000 = 0xFF00 ∧
    sext 11 0b11111111110 = 0xFFFE ∧ sext 1 1 = 0xFFFF ∧ sext 16 0x8001 = 0x8001 := by decide

theorem test_flags : condFor Config.default 0 = Z ∧ condFor Config.default 0x7FFF = P ∧
    condFor Config.default 0x8000 = N ∧ condFor Config.default 0x00FF = P := by decide

/-! ## 2.3: the keyboard cells -/

theorem test_poll_finds_a_key :
    (memRead 0xFE00 (listening [some 0xFF] [] (boot 0x3000 [] [(0xFE02, 0x41)]))).1 = 0x8000 ∧
    (memRead 0xFE00 (listening [some 0xFF] [] (boot 0x3000 [] [(0xFE02, 0x41)]))).2.mem.read 0xFE02 = 0xFF := by decide

theorem test_poll_finds_none :
    (memRead 0xFE00 (listening [none] [] (boot 0x3000 [] [(0xFE00, 0x1234), (0xFE02, 0x41)]))).1 = 0 ∧
    (memRead 0xFE00 (listening [none] [] (boot 0x3000 [] [(0xFE00, 0x1234), (0xFE02, 0x41)]))).2.mem.read 0xFE02 =
      0x41 := by decide

/-! ## 2.4: arithmetic -/

theorem test_add_wraps : goes (boot 0x3000 [(1, 0x8000), (2, 0x8000)] [(0x3000, 0x1642)])
    (fun t => t.reg 3 == 0 && t.cond == Z && t.pc == 0x3001) := by decide
theorem test_add_ignored_bits : goes (boot 0x3000 [(1, 0x10), (2, 0x20)] [(0x3000, 0x165A)])
    (fun t => t.reg 3 == 0x30 && t.cond == P) := by decide
theorem test_addi_negative : goes (boot 0x3000 [(2, 0x10)] [(0x3000, 0x12B0)])
    (fun t => t.reg 1 == 0 && t.cond == Z) := by decide
theorem test_addi_overflow : goes (boot 0x3000 [(4, 0x7FFF)] [(0x3000, 0x1921)])
    (fun t => t.reg 4 == 0x8000 && t.cond == N) := by decide
theorem test_and_register_seven : goes (boot 0x3000 [(3, 0xFFFF), (7, 0x8001)] [(0x3000, 0x56C7)])
    (fun t => t.reg 3 == 0x8001 && t.cond == N) := by decide
theorem test_andi_extends : goes (boot 0x3000 [(2, 0xBEEF)] [(0x3000, 0x52B0)])
    (fun t => t.reg 1 == 0xBEE0 && t.cond == N) := by decide
theorem test_andi_positive : goes (boot 0x3000 [(2, 0xBEEF)] [(0x3000, 0x52AF)])
    (fun t => t.reg 1 == 0x000F && t.cond == P) := by decide
theorem test_not : goes (boot 0x3000 [(4, 0x8000)] [(0x3000, 0x973F)])
    (fun t => t.reg 3 == 0x7FFF && t.cond == P) := by decide
theorem test_not_ignored_bits : goes (boot 0x3000 [(2, 0x00FF)] [(0x3000, 0x9280)])
    (fun t => t.reg 1 == 0xFF00 && t.cond == N) := by decide

/-! ## 2.5: control -/

theorem test_br_not_taken : goes ((boot 0x3000 [] [(0x3000, 0x0405)]).setCond P) (fun t => t.pc == 0x3001) := by decide
theorem test_br_wraps : goes (boot 0xFFFF [] [(0xFFFF, 0x0E01)]) (fun t => t.pc == 0x0001) := by decide
theorem test_jmp_ignored_bits : goes (boot 0x3000 [(2, 0xABCD)] [(0x3000, 0xCEBF)]) (fun t => t.pc == 0xABCD) := by decide
theorem test_jsr_back : goes (boot 0x3000 [] [(0x3000, 0x4C00)])
    (fun t => t.pc == 0x2C01 && t.reg 7 == 0x3001) := by decide
theorem test_jsr_wraps : goes (boot 0 [] [(0, 0x4FFE)]) (fun t => t.pc == 0xFFFF && t.reg 7 == 1) := by decide
theorem test_jsrr : goes (boot 0x3000 [(2, 0x5000)] [(0x3000, 0x46BF)])
    (fun t => t.pc == 0x5000 && t.reg 7 == 0x3001) := by decide
theorem test_jsrr_seven : goes (boot 0x3000 [(7, 0x5000)] [(0x3000, 0x41C0)])
    (fun t => t.pc == 0x3001 && t.reg 7 == 0x3001) := by decide

/-! ## 2.6: loads -/

theorem test_ld_itself : goes (boot 0x3000 [] [(0x3000, 0x23FF)])
    (fun t => t.reg 1 == 0x23FF && t.cond == P) := by decide
theorem test_ld_polls : goes (listening [some 0x41] [] (boot 0xFD00 [] [(0xFD00, 0x26FF)]))
    (fun t => t.reg 3 == 0x8000 && t.cond == N && t.mem.read 0xFE00 == 0x8000 && t.mem.read 0xFE02 == 0x41) := by decide
theorem test_ldi_polled_pointer : goes
    (listening [some 0x7A] [] (boot 0xFD00 [] [(0xFD00, 0xA8FF), (0x8000, 0xBEEF), (0x0000, 0x0123)]))
    (fun t => t.reg 4 == 0xBEEF && t.cond == N) := by decide
theorem test_ldi_data_cell : goes (boot 0x3000 [] [(0x3000, 0xA801), (0x3002, 0xFE02), (0xFE02, 0x61)])
    (fun t => t.reg 4 == 0x61 && t.env.inputs == []) := by decide
theorem test_ldr_wraps : goes (boot 0x3000 [(2, 0xFFF0)] [(0x3000, 0x629F), (0x000F, 0x8001)])
    (fun t => t.reg 1 == 0x8001 && t.cond == N) := by decide
theorem test_ldr_onto_its_base : goes (boot 0x3000 [(2, 0x4000)] [(0x3000, 0x6480)])
    (fun t => t.reg 2 == 0 && t.cond == Z) := by decide
theorem test_lea : goes (boot 0x7F00 [] [(0x7F00, 0xEAFF)]) (fun t => t.reg 5 == 0x8000 && t.cond == N) := by decide
theorem test_lea_zero : goes (boot 0 [(5, 9)] [(0, 0xEBFF)]) (fun t => t.reg 5 == 0 && t.cond == Z) := by decide

/-! ## 2.7: stores -/

theorem test_st_over_itself : goes (boot 0x3000 [(1, 0xF025)] [(0x3000, 0x33FF)])
    (fun t => t.mem.read 0x3000 == 0xF025 && t.pc == 0x3001 && t.run == .running) := by decide
theorem test_sti : goes (boot 0x3000 [(1, 0xBEEF)] [(0x3000, 0xB202), (0x3003, 0x4000)])
    (fun t => t.mem.read 0x4000 == 0xBEEF && t.mem.read 0x3003 == 0x4000) := by decide
theorem test_sti_polled_pointer : goes (listening [none] [] (boot 0xFD00 [(1, 0xBEEF)] [(0xFD00, 0xB2FF)]))
    (fun t => t.mem.read 0 == 0xBEEF && t.mem.read 0xFE00 == 0) := by decide
theorem test_str_wraps : goes (boot 0x3000 [(1, 0xBEEF)] [(0x3000, 0x72BF)])
    (fun t => t.mem.read 0xFFFF == 0xBEEF) := by decide
theorem test_str_status_cell : goes (boot 0x3000 [(1, 0x5555), (2, 0xFE00)] [(0x3000, 0x7280)])
    (fun t => t.mem.read 0xFE00 == 0x5555 && t.env.inputs == []) := by decide

/-! ## 2.8: traps -/

theorem test_getc : goes (listening [] [0x41] (boot 0x3000 [(0, 0xFFFF)] [(0x3000, 0xF020)]))
    (fun t => t.reg 0 == 0x41 && t.cond == P && t.reg 7 == 0x3001 && t.pc == 0x3001 && t.env.output == []) := by decide
theorem test_getc_high_byte : goes (listening [] [0xFF] (boot 0x3000 [] [(0x3000, 0xF020)]))
    (fun t => t.reg 0 == 0xFF && t.cond == P) := by decide
theorem test_out_whole_value : goes (boot 0x3000 [(0, 0x1234)] [(0x3000, 0xF021)])
    (fun t => t.env.output == [0x1234] && t.reg 0 == 0x1234 && t.cond == Z && t.reg 7 == 0x3001) := by decide
theorem test_puts : goes (boot 0x3000 [(0, 0x4000)]
      [(0x3000, 0xF022), (0x4000, 0x48), (0x4001, 0x69), (0x4003, 0x21)])
    (fun t => t.env.output == [0x48, 0x69] && t.reg 0 == 0x4000) := by decide
theorem test_puts_through_the_keyboard : goes (listening [some 0x5A] [] (boot 0x3000 [(0, 0xFDFF)]
      [(0x3000, 0xF022), (0xFDFF, 0x41), (0xFE00, 0x42), (0xFE01, 0x43)]))
    (fun t => t.env.output == [0x41, 0x8000, 0x43, 0x5A] && t.mem.read 0xFE02 == 0x5A) := by decide
theorem test_in : goes (listening [] [0x61] (boot 0x3000 [] [(0x3000, 0xF023)]))
    (fun t => t.env.output == [0x45, 0x6E, 0x74, 0x65, 0x72, 0x20, 0x61, 0x20, 0x63, 0x68, 0x61, 0x72, 0x61, 0x63, 0x74,
        0x65, 0x72, 0x3A, 0x20, 0x61] && t.reg 0 == 0x61 && t.cond == P) := by decide
theorem test_in_zero : goes (listening [] [0] (boot 0x3000 [] [(0x3000, 0xF023)]))
    (fun t => t.env.output.length == 20 && t.reg 0 == 0 && t.cond == Z) := by decide
theorem test_putsp : goes (boot 0x3000 [(0, 0x4000)]
      [(0x3000, 0xF024), (0x4000, 0x6548), (0x4001, 0x6C6C), (0x4002, 0x006F), (0x4003, 0x4141)])
    (fun t => t.env.output == [0x48, 0x65, 0x6C, 0x6C, 0x6F]) := by decide
theorem test_putsp_low_byte_zero : goes (boot 0x3000 [(0, 0x4000)]
      [(0x3000, 0xF024), (0x4000, 0x6948), (0x4001, 0x4100)])
    (fun t => t.env.output == [0x48, 0x69]) := by decide
theorem test_halt : goes (boot 0x3000 [] [(0x3000, 0xF025)])
    (fun t => t.run == .halted && t.reg 7 == 0x3001 && t.env.output == []) := by decide
theorem test_undefined_below : goes (boot 0x3000 [] [(0x3000, 0xF01F)])
    (fun t => t.run == .fatal .undefinedTrapVector 0xF01F && t.reg 7 == 0x3001) := by decide
theorem test_undefined_above : goes (boot 0x3000 [] [(0x3000, 0xF026)])
    (fun t => t.run == .fatal .undefinedTrapVector 0xF026 && t.reg 7 == 0x3001) := by decide

/-! ## 2.9: reserved opcodes -/

theorem test_rti : goes (boot 0x3000 [] [(0x3000, 0x8ABC)])
    (fun t => t.run == .fatal .illegalOpcode 0x8ABC && t.pc == 0x3001 && t.reg 7 == 0) := by decide
theorem test_res_at_the_top : goes (boot 0xFFFF [] [(0xFFFF, 0xDFFF)])
    (fun t => t.run == .fatal .illegalOpcode 0xDFFF && t.pc == 0) := by decide

/-! ## 2.10: reset, load and start -/

/-- The launch succeeds, and `p` holds of the state the first step finds. -/
def launches (images : List (List Byte)) (p : State → Bool) : Bool :=
  match launch Config.default 0x3000 images with
  | .ok s => p s
  | .error _ => false

theorem test_launch : launches [[0x30, 0x00, 0x10, 0x25, 0xF0, 0x25]]
    (fun s => s.mem == ⟨[(0x3000, 0x1025), (0x3001, 0xF025)]⟩ && s.pc == 0x3000 && s.cond == Z && s.run == .running) := by
  decide
theorem test_launch_wraps : launches [[0xFF, 0xFF, 0x00, 0x01, 0x00, 0x02, 0x00, 0x03]]
    (fun s => s.mem == ⟨[(0, 2), (1, 3), (0xFFFF, 1)]⟩ && s.pc == 0xFFFF) := by decide
theorem test_launch_later_image_wins :
    launches [[0x30, 0x00, 0x10, 0x21, 0x10, 0x21, 0xF0, 0x25], [0x30, 0x01, 0x10, 0x2A]]
    (fun s => s.mem == ⟨[(0x3000, 0x1021), (0x3001, 0x102A), (0x3002, 0xF025)]⟩ && s.pc == 0x3000) := by decide
theorem test_launch_nothing : launches [] (fun s => s == State.reset) := by decide
theorem test_launch_origin_alone : launches [[0x30, 0x00]] (fun s => s.mem == ⟨[]⟩) := by decide

/-! ## The writing of programs (30_encoding.md R62, R63; programs P1 and P6) and the host's two functions -/

theorem test_asm : AsmLine.cells Config.default .ret = [0xC1C0] ∧ AsmLine.cells Config.default .nop = [0x0000] ∧
    AsmLine.cells Config.default (.instr (.not 1 2 0)) = [0x92BF] ∧
    AsmLine.cells Config.default (.instr (.br (brLetters false true true) 0b111111110)) = [0x07FE] ∧
    AsmLine.cells Config.default (.stringz "Hi") = [0x48, 0x69, 0] ∧
    labelOffset 9 0x3000 0x3001 = some 0b111111110 ∧ labelOffset 9 0x4000 0x3000 = none := by decide

theorem test_decodeTableWord : decodeTableWord 16 0xF025 = some (.halt 0) := by decide

theorem test_withFetchWord : goes (State.reset.withFetchWord 16 0x1025)
    (fun t => t.reg 0 == 5 && t.cond == P && t.pc == 0x3001) := by decide

/-! ## Witnesses: for each obligation with hypotheses, values that meet them all, and each clause at a boundary -/

/-- The premise the decoding clauses share. -/
abbrev opcodeIs (w : Word) (op : BitVec 4) : Prop := w.extractLsb' 12 4 = op

theorem witness_DecodeOfEncodeIsTheInstruction : Config.default.Legal ∧
    (Instr.trapUndefined 0 0x1F).wellFormed = true ∧ (Instr.trapUndefined 0xF 0x26).wellFormed = true := by decide

theorem witness_EveryWordDecodesAndEncodesBack : Config.default.Legal := by decide

theorem witness_IgnoredBitsChangeNoEffect :
    customary (.add 1 2 0 3) = customary (.add 1 2 3 3) ∧
    customary (.trapUndefined 0 0x26) = customary (.trapUndefined 0xF 0x26) ∧ customary (.rti 0) = customary (.rti 1) := by
  decide

theorem witness_SignExtensionWidensTwosComplement : (1 ≤ 1 ∧ 1 ≤ 16) ∧ (1 ≤ 16 ∧ 16 ≤ 16) := by decide

theorem witness_ResetMeetsTheInvariant : Config.default.Legal := by decide

theorem witness_LaunchOfOneImageFillsItsCells :
    [0x1025#16, 0xF025#16].length ≤ 65536 ∧ 1 < [0x1025#16, 0xF025#16].length ∧
    ∀ k, k < [0x1025#16, 0xF025#16].length → (0x3002 : Word) ≠ 0x3000 + BitVec.ofNat 16 k := by decide

theorem witness_LaunchOfTwoImagesLaterOneWins :
    [0x1021#16, 0x1021#16, 0xF025#16].length ≤ 65536 ∧ [0x102A#16].length ≤ 65536 ∧
    (0x3001 : Word) ≠ 0x3000 ∧ 0 < [0x102A#16].length ∧
    (∀ k, k < [0x102A#16].length → (0x3002 : Word) ≠ 0x3001 + BitVec.ofNat 16 k) ∧
    (0x3002 : Word) = 0x3000 + BitVec.ofNat 16 2 ∧
    ∀ k, k < [0x1021#16, 0x1021#16, 0xF025#16].length → (0x3003 : Word) ≠ 0x3000 + BitVec.ofNat 16 k := by decide

/-- The clause of one shared origin: PC_START is that origin, whatever the host's choice, here 0x4000 (log 22). -/
theorem witness_LaunchOfTwoImagesLaterOneWins_sameOrigin :
    [0x1021#16].length ≤ 65536 ∧ [0x102A#16].length ≤ 65536 ∧
    (launch Config.default 0x4000 [imageBytes [0x3000, 0x1021], imageBytes [0x3000, 0x102A]]).toOption.map
      (fun s => (s.pc, s.mem)) = some (0x3000, ⟨[(0x3000, 0x102A)]⟩) := by decide

theorem witness_LaunchRefusesMalformedImages : [0x30#8].length % 2 = 1 := by decide

theorem witness_StepFetchesIncrementsAndExecutes :
    let s := boot 0xFFFF [] [(0xFFFF, 0x1025)]
    s.run = .running ∧ decode s.cfg (memRead s.pc s).1 = .ok (.addi 0 0 5) := by decide

theorem witness_NoStepOutsideRunning :
    let s := State.afterReset Config.default
    s.run ≠ .running ∧ (s.setRun .halted).run ≠ .running ∧ (s.setRun (.fatal .illegalOpcode 0)).run ≠ .running ∧
    Reaches s s := ⟨by decide, by decide, by decide, .here _⟩

theorem inv_boot : Inv (boot 0x3000 [(1, 0xBEEF)] [(0x3000, 0x3202)]) :=
  ⟨by decide, by decide, by decide⟩

theorem witness_StepKeepsTheInvariant :
    ∃ t, step (boot 0x3000 [(1, 0xBEEF)] [(0x3000, 0x3202)]) = .next t ∧ t.mem.read 0x3003 = 0xBEEF :=
  ⟨_, rfl, by decide⟩

theorem witness_StoreIsSeenByTheNextFetch :
    let s := boot 0x3001 [(1, 0xF025)] []
    s.run = .running ∧ s.pc ≠ s.cfg.kbsrAddr ∧ decode s.cfg (s.reg 1) = .ok (.halt 0) := by decide

theorem witness_FetchFromTheStatusCell :
    let s := boot 0xFE00 [] []
    s.cfg.Legal ∧ s.cfg.opRTI = 8 ∧ s.cfg.opBR = 0 ∧ s.run = .running ∧ s.pc = s.cfg.kbsrAddr ∧
    (kbdPoll (listening [some 0] [] s)).1 = some 0 ∧ (kbdPoll (listening [none] [] s)).1 = none := by decide

theorem witness_SetccMatchesTheSign :
    let s := boot 0 [(0, 0), (1, 0x8000), (2, 0x7FFF), (3, 1), (4, 0xFFFF)] []
    s.cfg.Legal ∧ s.reg 0 = 0 ∧ (s.reg 1).toInt < 0 ∧ 0 < (s.reg 2).toInt ∧ 0 < (s.reg 3).toInt ∧ (s.reg 4).toInt < 0 := by
  decide

theorem witness_FlagsWrittenAndReadAsListed :
    (∃ t, exec (.addi 0 0 0b11111) State.reset = .next t ∧ flagSource (.addi 0 0 0b11111) = some 0 ∧ t.cond = N) ∧
    (∃ t, exec (.st 0 0) State.reset = .next t ∧ flagSource (.st 0 0) = none ∧ t.cond = Z) ∧
    ∀ nzp off, Instr.addi 0 0 0b11111 ≠ .br nzp off :=
  ⟨⟨_, rfl, rfl, by decide⟩, ⟨_, rfl, rfl, by decide⟩, fun _ _ h => by cases h⟩

theorem witness_MemReadPollsAtTheStatusAddressOnly :
    let s := listening [some 0x41] [] State.reset
    s.cfg.Legal ∧ (0xFE01 : Word) ≠ s.cfg.kbsrAddr ∧ (0xFE00 : Word) = s.cfg.kbsrAddr ∧
    (kbdPoll s).1 = some 0x41 ∧ (kbdPoll (listening [none] [] s)).1 = none := by decide

theorem witness_DataCellReadHasNoEffect :
    let s := listening [some 0] [] State.reset
    s.cfg.Legal ∧ (kbdPoll s).1 = some 0 := by decide

theorem witness_PollTakesTheListedAnswer : (listening [none, some 0xFF] [] State.reset).env.kbdAnswers = none :: [some 0xFF] := by
  decide

theorem witness_EqualMemoriesAreEqualData : ∃ m n : Memory, m.wf = true ∧ n.wf = true ∧ m.cells ≠ [] ∧ ∀ a, m.read a = n.read a :=
  ⟨Memory.write ⟨[]⟩ 0xFFFF 1, Memory.write ⟨[]⟩ 0xFFFF 1, by decide, by decide, by decide, fun _ => rfl⟩

theorem witness_AddRegisterForm : Config.default.Legal ∧ opcodeIs 0x1FDF Config.default.opADD ∧
    (0x1FDF : Word).getLsbD 5 = false := by decide

theorem witness_AddImmediateForm : Config.default.Legal ∧ opcodeIs 0x1FFF Config.default.opADD ∧
    (0x1FFF : Word).getLsbD 5 = true := by decide

theorem witness_AndRegisterForm : Config.default.Legal ∧ opcodeIs 0x5FDF Config.default.opAND ∧
    (0x5FDF : Word).getLsbD 5 = false := by decide

theorem witness_AndImmediateForm : Config.default.Legal ∧ opcodeIs 0x5FFF Config.default.opAND ∧
    (0x5FFF : Word).getLsbD 5 = true := by decide

theorem witness_NotComplements : Config.default.Legal ∧ opcodeIs 0x903F Config.default.opNOT := by decide

theorem witness_BranchIsTakenOnAMatchingFlag : Config.default.Legal ∧ opcodeIs 0x0FFF Config.default.opBR ∧
    0b010#3 &&& State.reset.cond ≠ 0 ∧ 0b101#3 &&& State.reset.cond = 0 := by decide

theorem witness_DegenerateBranches : Inv State.reset := ⟨by decide, by decide, by decide⟩

theorem witness_JumpGoesToTheBaseRegister : Config.default.Legal ∧ opcodeIs 0xCEBF Config.default.opJMP := by decide

theorem witness_JumpToSubroutineLinksAndJumps : Config.default.Legal ∧ opcodeIs 0x4C00 Config.default.opJSR ∧
    (0x4C00 : Word).getLsbD 11 = true := by decide

theorem witness_JumpToSubroutineThroughRegister : Config.default.Legal ∧ opcodeIs 0x46BF Config.default.opJSR ∧
    (0x46BF : Word).getLsbD 11 = false ∧ (2 : RegIdx) ≠ 7 ∧ (7 : RegIdx) = 7 := by decide

theorem witness_LoadPcRelative : Config.default.Legal ∧ opcodeIs 0x23FF Config.default.opLD ∧
    State.reset.pc + (0 : BitVec 9).signExtend 16 ≠ State.reset.cfg.kbsrAddr := by decide

theorem witness_LoadIndirect :
    let s := boot 0x3001 [] [(0x3003, 0xFE02)]
    Config.default.Legal ∧ opcodeIs 0xA202 Config.default.opLDI ∧
    memRead (s.pc + (2 : BitVec 9).signExtend 16) s = (0xFE02, s) ∧
    s.pc + (2 : BitVec 9).signExtend 16 ≠ s.cfg.kbsrAddr ∧ (0xFE02 : Word) ≠ s.cfg.kbsrAddr := by decide

theorem witness_LoadBasePlusOffset : Config.default.Legal ∧ opcodeIs 0x629F Config.default.opLDR ∧
    State.reset.reg 2 + (31 : BitVec 6).signExtend 16 ≠ State.reset.cfg.kbsrAddr := by decide

theorem witness_LoadEffectiveAddress : Config.default.Legal ∧ opcodeIs 0xEBFF Config.default.opLEA := by decide

theorem witness_StorePcRelative : Config.default.Legal ∧ opcodeIs 0x33FF Config.default.opST := by decide

theorem witness_StoreIndirect :
    let s := boot 0x3001 [] [(0x3003, 0x3003)]
    Config.default.Legal ∧ opcodeIs 0xB202 Config.default.opSTI ∧
    memRead (s.pc + (2 : BitVec 9).signExtend 16) s = (0x3003, s) ∧
    s.pc + (2 : BitVec 9).signExtend 16 ≠ s.cfg.kbsrAddr := by decide

theorem witness_StoreBasePlusOffset : Config.default.Legal ∧ opcodeIs 0x72BF Config.default.opSTR := by decide

theorem witness_TrapDispatchesOnItsVector : Config.default.Legal ∧
    (opcodeIs 0xFA20 Config.default.opTRAP ∧ (0xFA20 : Word).extractLsb' 0 8 = 0x20#8) ∧
    (opcodeIs 0xF021 Config.default.opTRAP ∧ (0xF021 : Word).extractLsb' 0 8 = 0x21#8) ∧
    (opcodeIs 0xF022 Config.default.opTRAP ∧ (0xF022 : Word).extractLsb' 0 8 = 0x22#8) ∧
    (opcodeIs 0xF023 Config.default.opTRAP ∧ (0xF023 : Word).extractLsb' 0 8 = 0x23#8) ∧
    (opcodeIs 0xF024 Config.default.opTRAP ∧ (0xF024 : Word).extractLsb' 0 8 = 0x24#8) ∧
    (opcodeIs 0xF025 Config.default.opTRAP ∧ (0xF025 : Word).extractLsb' 0 8 = 0x25#8) ∧
    (opcodeIs 0xF01F Config.default.opTRAP ∧ ((0xF01F : Word).extractLsb' 0 8).toNat < 0x20) ∧
    (opcodeIs 0xF026 Config.default.opTRAP ∧ 0x25 < ((0xF026 : Word).extractLsb' 0 8).toNat) := by decide

theorem witness_EveryTrapSavesThePcInRSeven :
    ∃ t, isTrap (.out 0) = true ∧ exec (.out 0) State.reset = .next t ∧ t.reg 7 = 0x3000 := ⟨_, rfl, rfl, by decide⟩

theorem witness_GetcReadsOneByte :
    let s := listening [] [0, 0xFF] State.reset
    opcodeIs 0xFA20 s.cfg.opTRAP ∧ (0xFA20 : Word).extractLsb' 0 8 = 0x20#8 ∧
    s.cfg.Legal ∧ s.env.charBytes = (0 : Byte) :: [0xFF] ∧
    (listening [] [0xFF] s).env.charBytes = (0xFF : Byte) :: [] ∧ (0xFF : Byte) ≠ 0 := by decide

theorem witness_OutWritesRegisterZero : Config.default.Legal ∧ opcodeIs 0xF021 Config.default.opTRAP ∧
    (0xF021 : Word).extractLsb' 0 8 = 0x21#8 := by decide

theorem witness_InPromptsReadsAndEchoes :
    let s := listening [] [0xFF] State.reset
    s.cfg.Legal ∧ s.env.charBytes = (0xFF : Byte) :: [] ∧
    (listening [] [0] s).env.charBytes = (0 : Byte) :: [] ∧ (0xFF : Byte) ≠ 0 := by decide

theorem witness_UnlistedInputIsAnyByteOrNone : State.reset.env.charBytes = [] := rfl

theorem witness_StringServicesFollowTheirLoops : PutsWalk 1 0x4000 State.reset State.reset ∧
    PutspWalk 1 0x4000 State.reset State.reset := ⟨.stop rfl, .stopLow rfl⟩

theorem witness_StringServicesEndAtAnyZeroCell :
    let s := boot 0x3000 [(0, 0xFE00)] []
    (0xFDFF : Word) ≠ s.cfg.kbsrAddr ∧ (0xFDFF : Word) ≠ s.cfg.kbdrAddr ∧ s.mem.read 0xFDFF = 0 := by decide

theorem witness_PutsWritesTheStringBeforeTheFirstZeroCell :
    let s := boot 0x3000 [(0, 0xFFFF)] [(0xFFFF, 0x41), (0, 0x42)]
    CellsAt s (s.reg 0) [0x41, 0x42, 0] ∧ (0 : Word) ∈ [0x41#16, 0x42#16, 0#16] := by
  refine ⟨⟨by decide, by decide, by decide, by decide, by decide, by decide, trivial⟩, by decide⟩

theorem witness_PutspWritesTheBytesBeforeTheFirstZeroByte :
    let s := boot 0x3000 [(0, 0x4000)] [(0x4000, 0x6948), (0x4001, 0x006F)]
    CellsAt s (s.reg 0) [0x6948, 0x006F] ∧ (0 : Byte) ∈ packedBytes [0x6948, 0x006F] := by
  refine ⟨⟨by decide, by decide, by decide, by decide, trivial⟩, by decide⟩

theorem witness_UndefinedVectorIsAFatalStop : Config.default.Legal ∧
    (opcodeIs 0xF01F Config.default.opTRAP ∧ ((0xF01F : Word).extractLsb' 0 8).toNat < 0x20) ∧
    (opcodeIs 0xF026 Config.default.opTRAP ∧ 0x25 < ((0xF026 : Word).extractLsb' 0 8).toNat) := by decide

theorem witness_ReservedOpcodesAreFatalStops : Config.default.Legal ∧ opcodeIs 0x8ABC Config.default.opRTI ∧
    opcodeIs 0xDFFF Config.default.opRES := by decide

theorem inv_boot_at (pc w : Word) (h : (boot pc [] [(pc, w)]).mem.wf = true) : Inv (boot pc [] [(pc, w)]) :=
  ⟨by show Config.default.Legal; decide, Or.inr (Or.inl rfl), h⟩

theorem witness_FatalStopsArePrecise :
    (Inv (boot 0xFFFF [] [(0xFFFF, 0x8ABC)]) ∧ (boot 0xFFFF [] [(0xFFFF, 0x8ABC)]).run = .running ∧
      opcodeIs (memRead 0xFFFF (boot 0xFFFF [] [(0xFFFF, 0x8ABC)])).1 Config.default.opRTI) ∧
    (Inv (boot 0 [] [(0, 0xDFFF)]) ∧ opcodeIs (memRead 0 (boot 0 [] [(0, 0xDFFF)])).1 Config.default.opRES) ∧
    (Inv (boot 0 [] [(0, 0xF01F)]) ∧ opcodeIs (memRead 0 (boot 0 [] [(0, 0xF01F)])).1 Config.default.opTRAP ∧
      ((memRead 0 (boot 0 [] [(0, 0xF01F)])).1.extractLsb' 0 8).toNat < 0x20) ∧
    (Inv (boot 0 [] [(0, 0xF026)]) ∧ 0x25 < ((memRead 0 (boot 0 [] [(0, 0xF026)])).1.extractLsb' 0 8).toNat) :=
  ⟨⟨inv_boot_at _ _ (by decide), by decide, by decide⟩, ⟨inv_boot_at _ _ (by decide), by decide⟩,
    ⟨inv_boot_at _ _ (by decide), by decide, by decide⟩, ⟨inv_boot_at _ _ (by decide), by decide⟩⟩

theorem witness_RegistersWrittenAsListed :
    ∃ t, exec (.jsr 1) State.reset = .next t ∧ t.reg 7 = 0x3000 ∧ (6 : RegIdx) ∉ writtenRegs (.jsr 1) :=
  ⟨_, rfl, by decide, by decide⟩

theorem witness_ProgramCounterWrittenByControlTransfersOnly :
    let s := boot 0xFFFF [] [(0xFFFF, 0x1025)]
    writesPc (.addi 0 0 5) = false ∧ (∃ t, exec (.addi 0 0 5) s = .next t) ∧ s.run = .running ∧
    decode s.cfg (memRead s.pc s).1 = .ok (.addi 0 0 5) ∧ ∃ t, step s = .next t ∧ t.pc = 0 :=
  ⟨rfl, ⟨_, rfl⟩, rfl, by decide, ⟨_, rfl, by decide⟩⟩

theorem witness_RunLeftOnlyByHaltAndFatalStops :
    (∃ t, exec (.halt 0) State.reset = .next t ∧ t.run ≠ State.reset.run) ∧
    (∃ t, exec (.rti 0) State.reset = .next t ∧ t.run ≠ State.reset.run) ∧
    ∃ t, exec (.trapUndefined 0 0x26) State.reset = .next t ∧ t.run ≠ State.reset.run :=
  ⟨⟨_, rfl, by decide⟩, ⟨_, rfl, by decide⟩, ⟨_, rfl, by decide⟩⟩

theorem witness_MemoryWrittenByStoresAndPollsOnly :
    (∃ t, exec (.str 1 2 0) (boot 0 [(1, 0x5555), (2, 0xFE00)] []) = .next t ∧ t.mem.read 0xFE00 ≠ 0 ∧
      t.env.inputs = []) ∧
    ∃ t, exec (.ldr 1 2 0) (listening [some 0x41] [] (boot 0 [(2, 0xFE00)] [])) = .next t ∧
      t.mem.read 0xFE02 ≠ 0 ∧ t.env.inputs.length = 1 :=
  ⟨⟨_, rfl, by decide, by decide⟩, ⟨_, rfl, by decide, by decide⟩⟩

theorem witness_TracesOnlyGrow :
    (∃ t, exec (.out 0) State.reset = .next t ∧ t.env.output = [0]) ∧
    ∃ t, exec (.lea 0 0) State.reset = .next t ∧
      ∀ u, Instr.lea 0 0 ≠ .out u ∧ Instr.lea 0 0 ≠ .puts u ∧ Instr.lea 0 0 ≠ .inp u ∧ Instr.lea 0 0 ≠ .putsp u ∧
        Instr.lea 0 0 ≠ .halt u :=
  ⟨⟨_, rfl, by decide⟩, ⟨_, rfl, fun _ => by simp⟩⟩

end Sys2Proof.Tests
end

section
/-! PROOFS. The statements about the boundary of the core (spec/00_scope.md section 5): what a poll does, what GETC and
IN do where no byte is listed, and that the traces only grow. -/

namespace Sys2Proof.Machine

/-! ### A poll -/

theorem kbdPoll_charBytes (s : State) : (kbdPoll s).2.env.charBytes = s.env.charBytes := by
  unfold kbdPoll
  cases s.env.kbdAnswers <;> rfl

/-- Settles O23: the listed answer by `kbdPoll_listed`, the record and the frame by the lemmas of KbdPoll. -/
theorem pollTakesTheListedAnswer : Obligations.PollTakesTheListedAnswer := by
  refine ⟨fun s k rest hlisted => ?_, fun s =>
    ⟨kbdPoll_inputs s, kbdPoll_eq s, kbdPoll_output s, kbdPoll_charBytes s⟩⟩
  rw [kbdPoll_listed s hlisted]
  exact ⟨rfl, rfl⟩

/-! ### GETC and IN, by what CharIn answers -/

theorem execGetc_of_charIn_some {s t : State} {b : Byte} (h : charIn (trapEntry s) = some (b, t)) :
    execGetc s = .next (writeResult 0#3 (zext8 b) t) := by
  simp only [execGetc, h]

theorem execGetc_of_charIn_none {s : State} (h : charIn (trapEntry s) = none) :
    execGetc s = .refused (.inputNeverArrives (trapEntry s)) := by
  simp only [execGetc, h]

/-- The state in which IN waits for its byte: R7 and the prompt written (44_trap.md R115). -/
def prompted (s : State) : State := charOutAll s.cfg.inPrompt (trapEntry s)

theorem prompted_reg_seven (s : State) : (prompted s).reg 7#3 = s.pc := by
  simp [prompted, charOutAll_eq]

theorem prompted_output (s : State) : (prompted s).env.output = s.env.output ++ s.cfg.inPrompt := by
  simp [prompted, charOutAll_eq]

theorem prompted_inputs (s : State) : (prompted s).env.inputs = s.env.inputs := by
  simp [prompted, charOutAll_eq]

theorem execInp_of_charIn_some {s t : State} {b : Byte} (h : charIn (prompted s) = some (b, t)) :
    execInp s = .next (writeResult 0#3 (zext8 b) (charOut (zext8 b) t)) := by
  rw [prompted] at h
  simp only [execInp, h]

theorem execInp_of_charIn_none {s : State} (h : charIn (prompted s) = none) :
    execInp s = .refused (.inputNeverArrives (prompted s)) := by
  rw [prompted] at h
  simp only [execInp, h, prompted]

/-- GETC completes with the byte that CharIn answers, or waits for ever with R7 written. -/
theorem execGetc_byte_or_none (s : State) :
    (∃ b t, execGetc s = .next t ∧ t.reg 0#3 = zext8 b ∧ t.reg 7#3 = s.pc ∧
      t.env.inputs = s.env.inputs ++ [.charIn b] ∧ t.env.output = s.env.output) ∨
    execGetc s = .refused (.inputNeverArrives (trapEntry s)) := by
  cases hin : charIn (trapEntry s) with
  | none => exact .inr (execGetc_of_charIn_none hin)
  | some answer =>
    obtain ⟨b, t⟩ := answer
    obtain ⟨-, houtput, hinputs⟩ := charIn_some hin
    have hseven : t.reg 7#3 = s.pc := ((TalkedOnly.of_charIn hin).reg 7#3).trans (trapEntry_reg_seven s)
    refine .inl ⟨b, _, execGetc_of_charIn_some hin, writeResult_reg_same _ _ _, ?_, hinputs, houtput⟩
    rw [writeResult_reg_of_ne _ _ _ (by decide), hseven]

/-- IN prompts, then echoes the byte that CharIn answers and completes with it, or waits for ever. -/
theorem execInp_byte_or_none (s : State) :
    (∃ b t, execInp s = .next t ∧ t.reg 0#3 = zext8 b ∧ t.reg 7#3 = s.pc ∧
      t.env.inputs = s.env.inputs ++ [.charIn b] ∧ t.env.output = s.env.output ++ s.cfg.inPrompt ++ [zext8 b]) ∨
    execInp s = .refused (.inputNeverArrives (prompted s)) := by
  cases hin : charIn (prompted s) with
  | none => exact .inr (execInp_of_charIn_none hin)
  | some answer =>
    obtain ⟨b, t⟩ := answer
    obtain ⟨-, houtput, hinputs⟩ := charIn_some hin
    have hseven : t.reg 7#3 = s.pc := ((TalkedOnly.of_charIn hin).reg 7#3).trans (prompted_reg_seven s)
    refine .inl ⟨b, _, execInp_of_charIn_some hin, writeResult_reg_same _ _ _, ?_, ?_, ?_⟩
    · rw [writeResult_reg_of_ne _ _ _ (by decide), charOut_reg, hseven]
    · rw [writeResult_env, charOut_inputs, hinputs, prompted_inputs]
    · rw [writeResult_env, charOut_output, houtput, prompted_output]

/-- Settles O47: whatever CharIn answers, by `execGetc_byte_or_none` and `execInp_byte_or_none`. -/
theorem unlistedInputIsAnyByteOrNone : Obligations.UnlistedInputIsAnyByteOrNone := by
  refine fun u s _ => ⟨execGetc_byte_or_none s, ?_⟩
  obtain hcompletes | hwaits := execInp_byte_or_none s
  · exact .inl hcompletes
  · exact .inr ⟨prompted s, hwaits, prompted_reg_seven s, prompted_output s⟩

/-! ### The traces only grow -/

theorem TalkedOnly.traces {s t : State} (h : TalkedOnly s t) :
    s.env.output <+: t.env.output ∧ s.env.inputs <+: t.env.inputs ∧ t.cfg = s.cfg :=
  ⟨h.output, h.inputs, h.cfg⟩

/-- A branch changes `pc` at most (41_control.md R80). -/
theorem execBr_next {nzp : BitVec 3} {off : BitVec 9} {s t : State} (h : execBr nzp off s = .next t) :
    t = s.setPc t.pc := by
  cases h
  split <;> rfl

/-- Whatever else an instruction does to registers, flags, cells and the run state, its dealings with the environment
are those of `TalkedOnly`: none, one or two reads, or a service's transactions. -/
theorem exec_traces {i : Instr} {s t : State} (h : exec i s = .next t) :
    s.env.output <+: t.env.output ∧ s.env.inputs <+: t.env.inputs ∧ t.cfg = s.cfg := by
  cases i
  case add | addi | and | andi | not | jmp | jsr | jsrr | lea | st | str | trapUndefined | rti | res =>
    cases h
    exact (TalkedOnly.refl s).traces
  case br =>
    rw [execBr_next h]
    exact (TalkedOnly.refl s).traces
  case ld | ldr | sti =>
    cases h
    exact (TalkedOnly.of_memRead _ s).traces
  case ldi =>
    cases h
    exact ((TalkedOnly.of_memRead _ s).trans (.of_memRead _ _)).traces
  case getc =>
    obtain ⟨b, u, -, htalk, rfl⟩ := execGetc_next h
    exact htalk.traces
  case out =>
    cases h
    exact (TalkedOnly.of_charOut (s.reg 0#3) (trapEntry s)).traces
  case puts => exact (execPuts_next h).traces
  case inp =>
    obtain ⟨b, u, htalk, rfl⟩ := execInp_next h
    exact htalk.traces
  case putsp => exact (execPutsp_next h).traces
  case halt =>
    cases h
    exact (TalkedOnly.of_charOutAll s.cfg.haltMessage (trapEntry s)).traces

/-- Reads and GETC's CharIn leave the output trace alone; only the five services of 44_trap.md that write remain. -/
theorem exec_output_eq {i : Instr} {s t : State} (h : exec i s = .next t)
    (hquiet : ∀ u, i ≠ .out u ∧ i ≠ .puts u ∧ i ≠ .inp u ∧ i ≠ .putsp u ∧ i ≠ .halt u) :
    t.env.output = s.env.output := by
  cases i
  case add | addi | and | andi | not | jmp | jsr | jsrr | lea | st | str | trapUndefined | rti | res =>
    cases h
    rfl
  case br => rw [execBr_next h, State.setPc_env]
  case ld | ldr | sti =>
    cases h
    exact memRead_output _ s
  case ldi =>
    cases h
    exact (memRead_output _ _).trans (memRead_output _ s)
  case getc =>
    obtain ⟨b, u, hin, -, rfl⟩ := execGetc_next h
    obtain ⟨-, houtput, -⟩ := charIn_some hin
    exact houtput
  case out u | puts u | inp u | putsp u | halt u => simp at hquiet

/-- Settles O60: the prefixes and the configuration by `exec_traces`, the silent instructions by `exec_output_eq`. -/
theorem tracesOnlyGrow : Obligations.TracesOnlyGrow := by
  intro i s t h
  obtain ⟨houtput, hinputs, hcfg⟩ := exec_traces h
  exact ⟨houtput, hinputs, hcfg, exec_output_eq h⟩

end Sys2Proof.Machine
end

section
/-! PROOFS. The statements about the architectural state (spec/10_state.md): what a step keeps, which instruction writes
which register, `pc`, the flags and the run state, and the state after reset. They rest on one lemma, `exec_next`, which
says once what an instruction that completes can have done. -/

namespace Sys2Proof.Machine

/-! ### Reset and start -/

theorem resetWith_read (c : Config) (a : Word) : (State.resetWith c).mem.read a = 0 := rfl

theorem resetWith_reg (c : Config) (r : RegIdx) : (State.resetWith c).reg r = 0 := by
  simp [State.resetWith, State.afterReset, State.reg]

theorem afterReset_inv {c : Config} (h : c.Legal) : Inv (State.afterReset c) :=
  ⟨h, .inr (.inl rfl), Memory.wf_empty⟩

theorem resetWith_inv {c : Config} (h : c.Legal) : Inv (State.resetWith c) :=
  ⟨h, .inr (.inl rfl), Memory.wf_empty⟩

/-! ### The step, by the run state and the word fetched -/

theorem step_of_ne_running {s : State} (h : s.run ≠ .running) : step s = .next s := by
  unfold step
  split
  · contradiction
  all_goals rfl

theorem step_of_decode_ok {s : State} {i : Instr} (hrun : s.run = .running)
    (hdecode : decode s.cfg (fetch s).1 = .ok i) : step s = exec i (fetch s).2 := by
  simp only [step, hrun, hdecode]

theorem step_of_decode_error {s : State} {e : DecodeError} (hrun : s.run = .running)
    (hdecode : decode s.cfg (fetch s).1 = .error e) : step s = noHandler (fetch s).1 (fetch s).2 := by
  simp only [step, hrun, hdecode]

theorem fetch_pc (s : State) : (fetch s).2.pc = s.pc + 1 := by simp [fetch]

/-- A core that is not RUNNING never leaves the state it is in. -/
theorem eq_of_reaches {s t : State} (hrun : s.run ≠ .running) (h : Reaches s t) : t = s := by
  induction h with
  | here => rfl
  | more hstep _ ih =>
    rw [step_of_ne_running hrun] at hstep
    cases hstep
    exact ih hrun

/-- Settles O14: one step by `step_of_ne_running`, any number of them by `eq_of_reaches`. -/
theorem noStepOutsideRunning : Obligations.NoStepOutsideRunning :=
  fun _ hrun => ⟨step_of_ne_running hrun, fun _ => eq_of_reaches hrun⟩

/-- Settles O7: the fields of `resetWith` and `afterReset`; before the start the core is not RUNNING. -/
theorem resetFlagsRunAndMemory : Obligations.ResetFlagsRunAndMemory :=
  ⟨rfl, rfl, resetWith_read _, fun c => ⟨rfl, rfl, rfl, resetWith_read c, rfl, step_of_ne_running nofun⟩⟩

/-- Settles O8: the fields of `resetWith`, of which the default `pc` is one case. -/
theorem resetRegistersAndProgramCounter : Obligations.ResetRegistersAndProgramCounter :=
  ⟨rfl, fun c => ⟨resetWith_reg c, rfl, rfl, rfl⟩⟩

/-- Settles O9: the default configuration is legal, so `State.reset` is a case of `resetWith_inv`. -/
theorem resetMeetsTheInvariant : Obligations.ResetMeetsTheInvariant :=
  ⟨resetWith_inv (by decide), fun _ h => ⟨resetWith_inv h, afterReset_inv h⟩⟩

/-! ### What an instruction can do: perhaps a link in R7, talk with the environment, then one write -/

/-- `u` is what instruction `i` has made of `s` before its own write: R7 may hold the return address, if `i` writes R7,
and reads and transactions may have been made. -/
structure Prepared (i : Instr) (s u : State) : Prop where
  regs : RegsKeptBut (writtenRegs i) s u
  pc : u.pc = s.pc
  cond : u.cond = s.cond
  run : u.run = s.run
  cfg : u.cfg = s.cfg
  wf : s.mem.wf = true → u.mem.wf = true

namespace Prepared

variable {i : Instr} {s u : State}

theorem of_talk (h : TalkedOnly s u) : Prepared i s u :=
  ⟨fun r _ => h.reg r, h.pc, h.cond, h.run, h.cfg, h.wf⟩

theorem refl : Prepared i s s := of_talk (.refl s)

/-- The trap's entry writes R7 as JSR and JSRR do. -/
theorem of_entry (hseven : 7#3 ∈ writtenRegs i) (h : TalkedOnly (trapEntry s) u) : Prepared i s u where
  regs r hr := (h.reg r).trans (trapEntry_reg_of_ne s fun e => hr (e ▸ hseven))
  pc := h.pc
  cond := h.cond
  run := h.run
  cfg := h.cfg
  wf := h.wf

end Prepared

/-- The one write of instruction `i` after `Prepared`: none, a result with its flags, `pc`, a cell, or the run state. -/
inductive LastWrite : Instr → State → State → Prop
  | none {i : Instr} {u : State} (hflag : flagSource i = none) : LastWrite i u u
  | result {i : Instr} {u : State} {d : RegIdx} {v : Word} (hflag : flagSource i = some d) :
      LastWrite i u (writeResult d v u)
  | jump {i : Instr} {u : State} {p : Word} (hflag : flagSource i = none) (hpc : writesPc i = true) :
      LastWrite i u (u.setPc p)
  | store {i : Instr} {u : State} {a v : Word} (hflag : flagSource i = none) : LastWrite i u (memWrite a v u)
  | halt {n : BitVec 4} {u : State} : LastWrite (.halt n) u (u.setRun .halted)
  | rti {n : BitVec 12} {u : State} :
      LastWrite (.rti n) u (raiseFatal .illegalOpcode (encode u.cfg (.rti n)) u)
  | res {n : BitVec 12} {u : State} :
      LastWrite (.res n) u (raiseFatal .illegalOpcode (encode u.cfg (.res n)) u)
  | trapUndefined {n : BitVec 4} {vec : Byte} {u : State} : LastWrite (.trapUndefined n vec) u
      (raiseFatal .undefinedTrapVector (encode u.cfg (.trapUndefined n vec)) u)

/-- Every instruction that completes has prepared, then made its one write. -/
theorem exec_next {i : Instr} {s t : State} (h : exec i s = .next t) : ∃ u, Prepared i s u ∧ LastWrite i u t := by
  have entry : TalkedOnly (trapEntry s) (trapEntry s) := .refl _
  cases i
  case add | addi | and | andi | not | lea =>
    cases h
    exact ⟨s, .refl, .result rfl⟩
  case br =>
    rw [execBr_next h]
    exact ⟨s, .refl, .jump rfl rfl⟩
  case jmp =>
    cases h
    exact ⟨s, .refl, .jump rfl rfl⟩
  case jsr | jsrr =>
    cases h
    exact ⟨trapEntry s, .of_entry (.head _) entry, .jump rfl rfl⟩
  case ld | ldr =>
    cases h
    exact ⟨_, .of_talk (.of_memRead _ s), .result rfl⟩
  case ldi =>
    cases h
    exact ⟨_, .of_talk ((TalkedOnly.of_memRead _ s).trans (.of_memRead _ _)), .result rfl⟩
  case st | str =>
    cases h
    exact ⟨s, .refl, .store rfl⟩
  case sti =>
    cases h
    exact ⟨_, .of_talk (.of_memRead _ s), .store rfl⟩
  case getc =>
    obtain ⟨b, u, -, htalk, rfl⟩ := execGetc_next h
    exact ⟨u, .of_entry (.tail _ (.head _)) htalk, .result rfl⟩
  case out =>
    cases h
    exact ⟨_, .of_entry (.head _) (.of_charOut _ _), .none rfl⟩
  case puts => exact ⟨t, .of_entry (.head _) (execPuts_next h), .none rfl⟩
  case inp =>
    obtain ⟨b, u, htalk, rfl⟩ := execInp_next h
    exact ⟨u, .of_entry (.tail _ (.head _)) htalk, .result rfl⟩
  case putsp => exact ⟨t, .of_entry (.head _) (execPutsp_next h), .none rfl⟩
  case halt =>
    cases h
    exact ⟨_, .of_entry (.head _) (.of_charOutAll _ _), .halt⟩
  case trapUndefined =>
    cases h
    exact ⟨trapEntry s, .of_entry (.head _) entry, .trapUndefined⟩
  case rti =>
    cases h
    exact ⟨s, .refl, .rti⟩
  case res =>
    cases h
    exact ⟨s, .refl, .res⟩

/-! ### Every step keeps the invariant -/

/-- The invariant speaks of the configuration, `cond` and the memory only. -/
theorem Inv.of_kept {s t : State} (hs : Inv s) (hcfg : t.cfg = s.cfg) (hcond : t.cond = s.cond)
    (hwf : s.mem.wf = true → t.mem.wf = true) : Inv t where
  legal := hcfg ▸ hs.legal
  oneHot := by simpa only [CondOneHot, hcond, hcfg] using hs.oneHot
  memWf := hwf hs.memWf

theorem Prepared.inv {i : Instr} {s u : State} (h : Prepared i s u) (hs : Inv s) : Inv u :=
  hs.of_kept h.cfg h.cond h.wf

/-- A result brings one of the three flags, a store keeps the canonical form; `pc` and the run state are free. -/
theorem LastWrite.inv {i : Instr} {u t : State} (h : LastWrite i u t) (hu : Inv u) : Inv t := by
  cases h
  case result => exact ⟨hu.legal, condFor_oneHot u.cfg _, hu.memWf⟩
  case store => exact hu.of_kept rfl rfl fun hwf => Memory.wf_write hwf _ _
  case none | jump | halt | rti | res | trapUndefined => exact hu.of_kept rfl rfl id

theorem exec_keeps_inv {i : Instr} {s t : State} (hs : Inv s) (h : exec i s = .next t) : Inv t := by
  obtain ⟨u, hprepared, hlast⟩ := exec_next h
  exact hlast.inv (hprepared.inv hs)

theorem fetch_keeps_inv {s : State} (hs : Inv s) : Inv (fetch s).2 :=
  hs.of_kept (memRead_cfg s.pc s) (memRead_cond s.pc s) (memRead_wf s.pc s)

theorem noHandler_keeps_inv {ir : Word} {s t : State} (hs : Inv s) (h : noHandler ir s = .next t) : Inv t := by
  cases h
  exact hs.of_kept rfl rfl id

/-- Settles O15: the fetch, the instruction and the stop of a word without a handler each keep the invariant. -/
theorem stepKeepsTheInvariant : Obligations.StepKeepsTheInvariant := by
  intro s t hs h
  by_cases hrun : s.run = .running
  · cases hdecode : decode s.cfg (fetch s).1 with
    | ok i =>
      rw [step_of_decode_ok hrun hdecode] at h
      exact exec_keeps_inv (fetch_keeps_inv hs) h
    | error e =>
      rw [step_of_decode_error hrun hdecode] at h
      exact noHandler_keeps_inv (fetch_keeps_inv hs) h
  · rw [step_of_ne_running hrun] at h
    cases h
    exact hs

/-! ### Who writes the general registers, `pc` and the run state -/

theorem mem_writtenRegs_of_flagSource {i : Instr} {d : RegIdx} (h : flagSource i = some d) : d ∈ writtenRegs i := by
  cases i
  case add | addi | and | andi | not | ld | ldi | ldr | lea | getc | inp =>
    cases h
    exact .head _
  case br | jmp | jsr | jsrr | st | sti | str | out | puts | putsp | halt | trapUndefined | rti | res => cases h

/-- Settles O56: beside R7 an instruction writes the register of its result. -/
theorem registersWrittenAsListed : Obligations.RegistersWrittenAsListed := by
  intro i s t h r hr
  obtain ⟨u, hprepared, hlast⟩ := exec_next h
  rw [← hprepared.regs r hr]
  cases hlast
  case result hflag =>
    exact writeResult_reg_of_ne _ _ _ fun e => hr (e ▸ mem_writtenRegs_of_flagSource hflag)
  case none | jump | store | halt | rti | res | trapUndefined => rfl

theorem exec_pc_eq {i : Instr} {s t : State} (hi : writesPc i = false) (h : exec i s = .next t) : t.pc = s.pc := by
  obtain ⟨u, hprepared, hlast⟩ := exec_next h
  rw [← hprepared.pc]
  cases hlast
  case jump hpc => simp [hi] at hpc
  case none | result | store | halt | rti | res | trapUndefined => rfl

/-- Settles O57: after the fetch `pc` stands at the next cell, and `exec_pc_eq` leaves it there. -/
theorem programCounterWrittenByControlTransfersOnly : Obligations.ProgramCounterWrittenByControlTransfersOnly := by
  refine ⟨fun _ _ _ => exec_pc_eq, fun i s t hrun hdecode hi h => ?_⟩
  rw [step_of_decode_ok hrun hdecode] at h
  rw [exec_pc_eq hi h, fetch_pc]

/-- Settles O58: of the writes of `LastWrite` four are to the run state, one an end and three fatal stops. -/
theorem runLeftOnlyByHaltAndFatalStops : Obligations.RunLeftOnlyByHaltAndFatalStops := by
  intro i s t h hrun
  obtain ⟨u, hprepared, hlast⟩ := exec_next h
  rw [← hprepared.run] at hrun
  rw [← hprepared.cfg]
  cases hlast
  case halt n => exact .inl ⟨n, rfl, rfl⟩
  case rti n => exact .inr (.inl ⟨⟨n, .inl rfl⟩, rfl⟩)
  case res n => exact .inr (.inl ⟨⟨n, .inr rfl⟩, rfl⟩)
  case trapUndefined n vec => exact .inr (.inr ⟨n, vec, rfl, rfl⟩)
  case none | result | jump | store => exact absurd rfl hrun

/-! ### The flags of a value, by its sign -/

section
variable {c : Config} {v : Word}

theorem condFor_of_zero (h : v.toInt = 0) : condFor c v = c.flZro := by
  have hv : v = 0#16 := BitVec.eq_of_toInt_eq (by simpa using h)
  simp [condFor, hv]

theorem getLsbD_fifteen_eq (v : Word) : v.getLsbD 15 = decide (v.toInt < 0) := by
  rw [← BitVec.msb_eq_toInt, BitVec.msb_eq_getLsbD_last]

theorem condFor_of_neg (h : v.toInt < 0) : condFor c v = c.flNeg := by
  have hv : v ≠ 0#16 := by
    rintro rfl
    simp at h
  simp only [condFor, hv, getLsbD_fifteen_eq, h, decide_true, if_true, if_false]

theorem condFor_of_pos (h : 0 < v.toInt) : condFor c v = c.flPos := by
  have hv : v ≠ 0#16 := by
    rintro rfl
    simp at h
  simp only [condFor, hv, getLsbD_fifteen_eq, h.not_gt, decide_false, Bool.false_eq_true, if_false]

/-- The three flags of a legal configuration differ, so each tells one sign (10_state.md R16, R17). -/
theorem condFor_iff_sign (hlegal : c.Legal) :
    (condFor c v = c.flZro ↔ v.toInt = 0) ∧ (condFor c v = c.flNeg ↔ v.toInt < 0) ∧
      (condFor c v = c.flPos ↔ 0 < v.toInt) := by
  obtain ⟨-, -, ⟨hpz, hpn, hzn⟩, -⟩ := hlegal
  rcases lt_trichotomy v.toInt 0 with hneg | hzero | hpos
  · simp [condFor_of_neg hneg, hzn.symm, hpn.symm, hneg, hneg.ne, hneg.le]
  · simp [condFor_of_zero hzero, hzn, hpz.symm, hzero]
  · simp [condFor_of_pos hpos, hpz, hpn, hpos, hpos.ne', hpos.le]

end

/-- Settles O18: `setcc` writes `condFor` of the register, and `condFor_iff_sign` says which flag that is. -/
theorem setccMatchesTheSign : Obligations.SetccMatchesTheSign := by
  intro i s hlegal
  obtain ⟨hzero, hneg, hpos⟩ := condFor_iff_sign (v := s.reg i) hlegal
  have hword : s.reg i = 0 ↔ (s.reg i).toInt = 0 := by simp [← BitVec.toInt_inj]
  exact ⟨hzero.trans hword.symm, hneg, hpos, condFor_oneHot s.cfg (s.reg i), rfl⟩

/-! ### Who writes the flags -/

theorem exec_cond_of_flagSource_some {i : Instr} {s t : State} {d : RegIdx} (hd : flagSource i = some d)
    (h : exec i s = .next t) : t.cond = condFor s.cfg (t.reg d) := by
  obtain ⟨u, hprepared, hlast⟩ := exec_next h
  cases hlast
  case result d' v hflag =>
    obtain rfl : d' = d := Option.some.inj (hflag.symm.trans hd)
    simp [hprepared.cfg]
  case none hflag | store hflag | jump hflag _ => simp [hflag] at hd
  case halt | rti | res | trapUndefined => cases hd

theorem exec_cond_of_flagSource_none {i : Instr} {s t : State} (hi : flagSource i = none)
    (h : exec i s = .next t) : t.cond = s.cond := by
  obtain ⟨u, hprepared, hlast⟩ := exec_next h
  rw [← hprepared.cond]
  cases hlast
  case result hflag => simp [hi] at hflag
  case none | jump | store | halt | rti | res | trapUndefined => rfl

/-! ### Who reads the flags: every operation but BR's test commutes with another `cond` -/

section
variable (k : BitVec 3) (s : State)

theorem kbdPoll_setCond : kbdPoll (s.setCond k) = ((kbdPoll s).1, (kbdPoll s).2.setCond k) := by
  simp only [kbdPoll, State.setCond_env]
  split <;> rfl

theorem storePoll_setCond (answer : Option Byte) :
    storePoll answer (s.setCond k) = (storePoll answer s).setCond k := by
  cases answer <;> rfl

theorem memRead_setCond (a : Word) : memRead a (s.setCond k) = ((memRead a s).1, (memRead a s).2.setCond k) := by
  by_cases ha : a = s.cfg.kbsrAddr
  · simp [memRead, ha, kbdPoll_setCond, storePoll_setCond]
  · simp [memRead, ha]

theorem charOut_setCond (v : Word) : charOut v (s.setCond k) = (charOut v s).setCond k := rfl

theorem charOutAll_setCond (codes : List Word) :
    charOutAll codes (s.setCond k) = (charOutAll codes s).setCond k := by
  simp only [charOutAll_eq]
  rfl

theorem trapEntry_setCond : trapEntry (s.setCond k) = (trapEntry s).setCond k := rfl

theorem prompted_setCond : prompted (s.setCond k) = (prompted s).setCond k := charOutAll_setCond k (trapEntry s) _

theorem pcRelative_setCond {n : Nat} (off : BitVec n) : pcRelative off (s.setCond k) = pcRelative off s := rfl

theorem baseRelative_setCond (base : RegIdx) (off : BitVec 6) :
    baseRelative base off (s.setCond k) = baseRelative base off s := rfl

/-- A result overwrites the flags. -/
theorem writeResult_setCond (d : RegIdx) (v : Word) : writeResult d v (s.setCond k) = writeResult d v s := rfl

end

section
variable {s t : State} (k : BitVec 3)

theorem charIn_setCond {b : Byte} (h : charIn s = some (b, t)) :
    charIn (s.setCond k) = some (b, t.setCond k) := by
  simp only [charIn, State.setCond_env] at h ⊢
  split at h
  · cases h
    rfl
  · split at h
    · cases h
      rfl
    · cases h

theorem putsLoop_setCond {n : Nat} {a : Word} (h : putsLoop n a s = .next t) :
    putsLoop n a (s.setCond k) = .next (t.setCond k) := by
  induction n generalizing a s with
  | zero => simp [putsLoop] at h
  | succ n ih =>
    simp only [putsLoop, memRead_setCond] at h ⊢
    by_cases hzero : (memRead a s).1 = 0#16
    · rw [if_pos hzero] at h ⊢
      cases h
      rfl
    · rw [if_neg hzero] at h ⊢
      exact ih h

theorem putspLoop_setCond {n : Nat} {a : Word} (h : putspLoop n a s = .next t) :
    putspLoop n a (s.setCond k) = .next (t.setCond k) := by
  induction n generalizing a s with
  | zero => simp [putspLoop] at h
  | succ n ih =>
    simp only [putspLoop, memRead_setCond] at h ⊢
    by_cases hlow : (memRead a s).1.extractLsb' 0 8 = 0#8
    · rw [if_pos hlow] at h ⊢
      cases h
      rfl
    · rw [if_neg hlow] at h ⊢
      by_cases hhigh : (memRead a s).1.extractLsb' 8 8 = 0#8
      · rw [if_pos hhigh] at h ⊢
        cases h
        rfl
      · rw [if_neg hhigh] at h ⊢
        exact ih h

theorem execGetc_setCond (h : execGetc s = .next t) : execGetc (s.setCond k) = .next t := by
  obtain ⟨b, u, hin, -, rfl⟩ := execGetc_next h
  rw [execGetc_of_charIn_some (s := s.setCond k) (charIn_setCond k hin), writeResult_setCond]

theorem execInp_setCond (h : execInp s = .next t) : execInp (s.setCond k) = .next t := by
  cases hin : charIn (prompted s) with
  | none =>
    rw [execInp_of_charIn_none hin] at h
    cases h
  | some answer =>
    obtain ⟨b, u⟩ := answer
    have hin' : charIn (prompted (s.setCond k)) = some (b, u.setCond k) := by
      rw [prompted_setCond]
      exact charIn_setCond k hin
    rw [← h, execInp_of_charIn_some hin, execInp_of_charIn_some hin', charOut_setCond, writeResult_setCond]

theorem execPuts_setCond (h : execPuts s = .next t) : execPuts (s.setCond k) = .next (t.setCond k) := by
  rw [execPuts, putsPasses_eq] at h ⊢
  exact putsLoop_setCond k h

theorem execPutsp_setCond (h : execPutsp s = .next t) : execPutsp (s.setCond k) = .next (t.setCond k) :=
  putspLoop_setCond k h

end

/-- BR apart, an instruction that completes does the same from any flags; only `cond` itself stays as it was, where
the instruction does not recompute it. -/
theorem exec_setCond {i : Instr} {s t : State} (k : BitVec 3) (hbr : ∀ nzp off, i ≠ .br nzp off)
    (h : exec i s = .next t) : exec i (s.setCond k) = .next (if (flagSource i).isSome then t else t.setCond k) := by
  cases i
  case br nzp off => exact absurd rfl (hbr nzp off)
  case add | addi | and | andi | not | lea | jmp | jsr | jsrr | st | str | out | trapUndefined | rti | res =>
    cases h
    rfl
  case ld | ldi | ldr =>
    cases h
    simp only [exec, execLd, execLdi, execLdr, pcRelative_setCond, baseRelative_setCond, memRead_setCond]
    rfl
  case sti =>
    cases h
    simp only [exec, execSti, pcRelative_setCond, memRead_setCond]
    rfl
  case getc => exact execGetc_setCond k h
  case puts => exact execPuts_setCond k h
  case inp => exact execInp_setCond k h
  case putsp => exact execPutsp_setCond k h
  case halt =>
    cases h
    simp only [exec, execHalt, State.setCond_cfg, trapEntry_setCond, charOutAll_setCond]
    rfl

/-- Settles O19: the writing by `exec_cond_of_flagSource_some` and `_none`, the reading by `exec_setCond`, a poll by
`memRead_cond`. -/
theorem flagsWrittenAndReadAsListed : Obligations.FlagsWrittenAndReadAsListed := by
  refine ⟨fun i s t h => ?_, fun i s t k hbr h => exec_setCond k hbr h, memRead_cond⟩
  cases hd : flagSource i with
  | none => exact exec_cond_of_flagSource_none hd h
  | some d => exact exec_cond_of_flagSource_some hd h

end Sys2Proof.Machine
end

section
/-! PROOFS. The statements about memory and the keyboard cells (spec/20_memory.md): what the two primitives do, what a
fetch sees, and who writes a cell. -/

namespace Sys2Proof

theorem Config.Legal.kbsrAddr_ne_kbdrAddr {c : Config} (h : c.Legal) : c.kbsrAddr ≠ c.kbdrAddr := by
  obtain ⟨-, -, -, hne⟩ := h
  exact hne

end Sys2Proof

namespace Sys2Proof.Machine

/-! ### Memory as data -/

/-- Settles O24: the lists agree at every address below 65536, so `cells_eq_of_find_eq` makes them one list. -/
theorem equalMemoriesAreEqualData : Obligations.EqualMemoriesAreEqualData := by
  intro m n hm hn hread
  have hcells : m.cells = n.cells := Memory.cells_eq_of_find_eq hm hn fun a ha => by
    simpa [Memory.read, Nat.mod_eq_of_lt ha] using hread (BitVec.ofNat 16 a)
  exact congrArg Memory.mk hcells

/-! ### MemWrite -/

theorem memWrite_read_same (a v : Word) (s : State) : (memWrite a v s).mem.read a = v :=
  Memory.read_write_same s.mem a v

theorem memWrite_read_of_ne {a b : Word} (h : b ≠ a) (v : Word) (s : State) :
    (memWrite a v s).mem.read b = s.mem.read b :=
  Memory.read_write_of_ne s.mem h v

/-- A cell that reads other than `w` after a store is the one stored to, or read other than `w` before it. -/
theorem eq_or_read_ne_of_memWrite {a b v w : Word} {s : State} (h : (memWrite b v s).mem.read a ≠ w) :
    a = b ∨ s.mem.read a ≠ w := by
  by_cases hab : a = b
  · exact .inl hab
  · exact .inr (memWrite_read_of_ne hab v s ▸ h)

theorem memWrite_cellsKeptBut (a v : Word) (s : State) : CellsKeptBut [a] s (memWrite a v s) :=
  fun _ hb => memWrite_read_of_ne (List.ne_of_not_mem_cons hb) v s

/-- Settles O22: the cells by the laws of `Memory.write`; no other field is written. -/
theorem memWriteIsAPlainStore : Obligations.MemWriteIsAPlainStore := fun a v s =>
  ⟨memWrite_read_same a v s, memWrite_cellsKeptBut a v s, rfl, rfl, rfl, fun _ _ => rfl, rfl, rfl⟩

/-! ### MemRead at the status address: one poll, and what it leaves in the keyboard cells (20_memory.md R32, R33) -/

section
variable (s : State)

theorem memRead_status_env : (memRead s.cfg.kbsrAddr s).2.env = (kbdPoll s).2.env := by simp [memRead_status]

/-- The value answered is what the poll left in the status cell. -/
theorem memRead_status_read_kbsr :
    (memRead s.cfg.kbsrAddr s).2.mem.read s.cfg.kbsrAddr = (memRead s.cfg.kbsrAddr s).1 := by
  rw [memRead_status]

end

theorem memRead_cellsKeptBut (a : Word) (s : State) :
    CellsKeptBut [s.cfg.kbsrAddr, s.cfg.kbdrAddr] s (memRead a s).2 := by
  intro b hb
  obtain ⟨hs, hd⟩ : b ≠ s.cfg.kbsrAddr ∧ b ≠ s.cfg.kbdrAddr := by simpa using hb
  exact memRead_read_of_ne a s hs hd

section
variable {s : State} {b : Byte}

theorem memRead_status_of_some (hlegal : s.cfg.Legal) (hkey : (kbdPoll s).1 = some b) :
    (memRead s.cfg.kbsrAddr s).1 = 0x8000 := by
  simp [memRead_status, hkey, storePoll, Memory.read_write_of_ne, hlegal.kbsrAddr_ne_kbdrAddr, Config.keyReady]

theorem memRead_status_read_kbdr_of_some (hkey : (kbdPoll s).1 = some b) :
    (memRead s.cfg.kbsrAddr s).2.mem.read s.cfg.kbdrAddr = b.setWidth 16 := by
  simp [memRead_status, hkey, storePoll]

theorem memRead_status_of_none (hnone : (kbdPoll s).1 = none) : (memRead s.cfg.kbsrAddr s).1 = 0 := by
  simp [memRead_status, hnone, storePoll]

/-- A poll that finds no key writes the status cell alone. -/
theorem memRead_status_cellsKeptBut_of_none (hnone : (kbdPoll s).1 = none) :
    CellsKeptBut [s.cfg.kbsrAddr] s (memRead s.cfg.kbsrAddr s).2 := by
  intro a ha
  simp [memRead_status, hnone, storePoll, Memory.read_write_of_ne _ (List.ne_of_not_mem_cons ha)]

end

/-- Settles O20: elsewhere `memRead_of_ne`; at the status address the lemmas above, by what the poll answered. -/
theorem memReadPollsAtTheStatusAddressOnly : Obligations.MemReadPollsAtTheStatusAddressOnly := by
  refine fun a s hlegal => ⟨memRead_of_ne, ?_⟩
  rintro rfl
  refine ⟨memRead_status_env s, memRead_pc _ s, memRead_cond _ s, fun r _ => memRead_reg _ s r,
    ⟨memRead_run _ s, memRead_cfg _ s⟩, memRead_cellsKeptBut _ s, memRead_status_read_kbsr s, ?_⟩
  cases hpoll : (kbdPoll s).1 with
  | some b => exact ⟨memRead_status_of_some hlegal hpoll, memRead_status_read_kbdr_of_some hpoll⟩
  | none =>
    have hdata : s.cfg.kbdrAddr ∉ [s.cfg.kbsrAddr] := by simpa using hlegal.kbsrAddr_ne_kbdrAddr.symm
    exact ⟨memRead_status_of_none hpoll, memRead_status_cellsKeptBut_of_none hpoll _ hdata⟩

/-! ### MemRead at the data address -/

theorem memRead_kbdrAddr {s : State} (hlegal : s.cfg.Legal) :
    memRead s.cfg.kbdrAddr s = (s.mem.read s.cfg.kbdrAddr, s) :=
  memRead_of_ne hlegal.kbsrAddr_ne_kbdrAddr.symm

/-- The form for a state that an operation has left: the configuration is still the one before. -/
theorem memRead_kbdrAddr_of_cfg_eq {s t : State} (hlegal : s.cfg.Legal) (hcfg : t.cfg = s.cfg) :
    (memRead s.cfg.kbdrAddr t).1 = t.mem.read s.cfg.kbdrAddr := by
  rw [← hcfg] at hlegal ⊢
  rw [memRead_kbdrAddr hlegal]

/-- Settles O21: the data cell is read plainly, so it gives what a poll, a store or reset left there. -/
theorem dataCellReadHasNoEffect : Obligations.DataCellReadHasNoEffect := by
  refine fun s hlegal => ⟨memRead_kbdrAddr hlegal, fun b hkey => ?_, fun v => ?_, ?_⟩
  · rw [memRead_kbdrAddr_of_cfg_eq hlegal (memRead_cfg _ s), memRead_status_read_kbdr_of_some hkey]
  · rw [memRead_kbdrAddr_of_cfg_eq hlegal (t := memWrite _ v s) rfl, memWrite_read_same]
  · rw [memRead_kbdrAddr_of_cfg_eq hlegal (t := State.resetWith s.cfg) rfl, resetWith_read]

/-! ### The fetch, of a cell just stored and of the status cell -/

theorem fetch_mem (s : State) : (fetch s).2.mem = (memRead s.pc s).2.mem := rfl
theorem fetch_env (s : State) : (fetch s).2.env = (memRead s.pc s).2.env := rfl
theorem fetch_reg (s : State) (r : RegIdx) : (fetch s).2.reg r = s.reg r := memRead_reg s.pc s r
theorem fetch_cond (s : State) : (fetch s).2.cond = s.cond := memRead_cond s.pc s
theorem fetch_run (s : State) : (fetch s).2.run = s.run := memRead_run s.pc s
theorem fetch_cfg (s : State) : (fetch s).2.cfg = s.cfg := memRead_cfg s.pc s

theorem fetch_of_ne {s : State} (h : s.pc ≠ s.cfg.kbsrAddr) : fetch s = (s.mem.read s.pc, s.setPc (s.pc + 1)) := by
  simp only [fetch, memRead_of_ne h]

theorem pcRelative_zero (s : State) : pcRelative (0 : BitVec 9) s = s.pc := by
  have hzero : sextField (0 : BitVec 9) = 0 := by decide
  rw [pcRelative, hzero]
  exact BitVec.add_zero s.pc

/-- Settles O16: the fetch of the next step reads the cell that the store has written. -/
theorem storeIsSeenByTheNextFetch : Obligations.StoreIsSeenByTheNextFetch := by
  intro s r i hrun hpc hdecode
  have hexec : exec (.st r 0) s = .next (memWrite s.pc (s.reg r) s) := by
    simp only [exec, execSt, pcRelative_zero]
  refine ⟨_, hexec, rfl, ?_⟩
  have hfetch := fetch_of_ne (s := memWrite s.pc (s.reg r) s) hpc
  have hword : (fetch (memWrite s.pc (s.reg r) s)).1 = s.reg r := by
    rw [hfetch]
    exact memWrite_read_same s.pc (s.reg r) s
  rw [step_of_decode_ok (s := memWrite s.pc (s.reg r) s) hrun (hword ▸ hdecode), hfetch]

section
variable {c : Config}

/-- What a poll that found a key leaves in the status cell is RTI under its default number. -/
theorem decode_keyReady (hlegal : c.Legal) (hrti : c.opRTI = 8) : decode c 0x8000 = .ok (.rti 0) :=
  decode_opRTI hlegal 0x8000 (hrti ▸ by decide)

theorem encode_rti_zero (hrti : c.opRTI = 8) : encode c (.rti 0) = 0x8000 := by
  simp only [encode, hrti]
  decide

/-- What a poll that found none leaves there is, under BR's default number, a branch with an empty condition field. -/
theorem decode_zero (hlegal : c.Legal) (hbr : c.opBR = 0) : decode c 0 = .ok (.br 0 0) :=
  decode_opBR hlegal 0 (hbr ▸ by decide)

end

theorem exec_br_empty (off : BitVec 9) (s : State) : exec (.br 0 off) s = .next s := by
  simp [exec, execBr, branchTaken]

section
variable {s : State} {b : Byte} (hlegal : s.cfg.Legal) (hrun : s.run = .running) (hpc : s.pc = s.cfg.kbsrAddr)

include hlegal hrun hpc in
theorem step_status_of_some (hrti : s.cfg.opRTI = 8) (hkey : (kbdPoll s).1 = some b) :
    step s = .next ((fetch s).2.setRun (.fatal .illegalOpcode 0x8000)) := by
  have hword : (fetch s).1 = 0x8000 := by
    simp only [fetch, hpc, memRead_status_of_some hlegal hkey]
  rw [step_of_decode_ok hrun (hword ▸ decode_keyReady hlegal hrti)]
  simp only [exec, execRti, raiseFatal, fetch_cfg, encode_rti_zero hrti]

include hlegal hrun hpc in
theorem step_status_of_none (hbr : s.cfg.opBR = 0) (hnone : (kbdPoll s).1 = none) :
    step s = .next (fetch s).2 := by
  have hword : (fetch s).1 = 0 := by
    simp only [fetch, hpc, memRead_status_of_none hnone]
  rw [step_of_decode_ok hrun (hword ▸ decode_zero hlegal hbr), exec_br_empty]

end

/-- Settles O17: the fetch polls, and of the two words it can bring one is RTI, the other a branch never taken. -/
theorem fetchFromTheStatusCell : Obligations.FetchFromTheStatusCell := by
  intro s hlegal hrti hbr hrun hpc
  have hmem : (fetch s).2.mem = (memRead s.cfg.kbsrAddr s).2.mem := by rw [fetch_mem, hpc]
  have henv : (fetch s).2.env = (kbdPoll s).2.env := by rw [fetch_env, hpc, memRead_status_env]
  refine ⟨fun b hkey => ⟨_, step_status_of_some hlegal hrun hpc hrti hkey, rfl, ?_, ?_, ?_, henv,
      fun r _ => fetch_reg s r, fetch_cond s, fetch_pc s, fetch_cfg s⟩,
    fun hnone => ⟨_, step_status_of_none hlegal hrun hpc hbr hnone, (fetch_run s).trans hrun, ?_, ?_, henv,
      fun r _ => fetch_reg s r, fetch_cond s, fetch_pc s, fetch_cfg s⟩⟩
  · rw [State.setRun_mem, hmem, memRead_status_read_kbsr, memRead_status_of_some hlegal hkey]
  · rw [State.setRun_mem, hmem, memRead_status_read_kbdr_of_some hkey]
  · simp only [CellsKeptBut, State.setRun_mem, hmem]
    exact memRead_cellsKeptBut _ s
  · rw [hmem, memRead_status_read_kbsr, memRead_status_of_none hnone]
  · simp only [CellsKeptBut, hmem]
    exact memRead_status_cellsKeptBut_of_none hnone

/-! ### Who writes a cell: a poll is in the input trace, and a store names its cell -/

/-- `TalkedOnly`, and the memory has changed only if a transaction was answered. -/
structure PolledOnly (s t : State) : Prop where
  talked : TalkedOnly s t
  mem : t.mem = s.mem ∨ s.env.inputs.length < t.env.inputs.length

namespace PolledOnly

theorem trans {s t u : State} (h : PolledOnly s t) (k : PolledOnly t u) : PolledOnly s u where
  talked := h.talked.trans k.talked
  mem := by
    have hst := h.talked.inputs.length_le
    have htu := k.talked.inputs.length_le
    rcases h.mem, k.mem with ⟨hmem | hgrown, kmem | kgrown⟩
    · exact .inl (kmem.trans hmem)
    all_goals exact .inr (by omega)

theorem of_memRead (a : Word) (s : State) : PolledOnly s (memRead a s).2 where
  talked := .of_memRead a s
  mem := by
    by_cases ha : a = s.cfg.kbsrAddr
    · right
      simp [ha, memRead_status_env, kbdPoll_inputs]
    · rw [memRead_of_ne ha]
      exact .inl rfl

theorem of_charOut (v : Word) (s : State) : PolledOnly s (charOut v s) := ⟨.of_charOut v s, .inl rfl⟩

theorem of_putsLoop {n : Nat} {a : Word} {s t : State} (h : putsLoop n a s = .next t) : PolledOnly s t := by
  induction n generalizing a s with
  | zero => simp [putsLoop] at h
  | succ n ih =>
    simp only [putsLoop] at h
    split at h
    · cases h
      exact of_memRead a s
    · exact (of_memRead a s).trans ((of_charOut _ _).trans (ih h))

theorem of_putspLoop {n : Nat} {a : Word} {s t : State} (h : putspLoop n a s = .next t) : PolledOnly s t := by
  induction n generalizing a s with
  | zero => simp [putspLoop] at h
  | succ n ih =>
    simp only [putspLoop] at h
    split at h
    · cases h
      exact of_memRead a s
    · split at h
      · cases h
        exact (of_memRead a s).trans (of_charOut _ _)
      · exact (of_memRead a s).trans ((of_charOut _ _).trans ((of_charOut _ _).trans (ih h)))

theorem of_execPuts {s t : State} (h : execPuts s = .next t) : PolledOnly (trapEntry s) t := by
  rw [execPuts, putsPasses_eq] at h
  exact of_putsLoop h

theorem of_execPutsp {s t : State} (h : execPutsp s = .next t) : PolledOnly (trapEntry s) t := of_putspLoop h

/-- A cell that reads otherwise is a keyboard cell, and the input trace has grown. -/
theorem of_read_ne {s t : State} {a : Word} (h : PolledOnly s t) (hne : t.mem.read a ≠ s.mem.read a) :
    (a = s.cfg.kbsrAddr ∨ a = s.cfg.kbdrAddr) ∧ s.env.inputs.length < t.env.inputs.length := by
  constructor
  · by_contra hother
    obtain ⟨hs, hd⟩ := not_or.mp hother
    exact hne (h.talked.cells a hs hd)
  · rcases h.mem with hmem | hgrown
    · exact absurd (congrArg (·.read a) hmem) hne
    · exact hgrown

end PolledOnly

theorem charIn_mem {s t : State} {b : Byte} (h : charIn s = some (b, t)) : t.mem = s.mem := by
  obtain ⟨ht, -, -⟩ := charIn_some h
  rw [ht, State.setEnv_mem]

theorem charOutAll_mem (codes : List Word) (s : State) : (charOutAll codes s).mem = s.mem := by
  rw [charOutAll_eq, State.setEnv_mem]

theorem execGetc_mem {s t : State} (h : execGetc s = .next t) : t.mem = s.mem := by
  obtain ⟨b, u, hin, -, rfl⟩ := execGetc_next h
  rw [writeResult_mem, charIn_mem hin, trapEntry_mem]

theorem execInp_mem {s t : State} (h : execInp s = .next t) : t.mem = s.mem := by
  cases hin : charIn (prompted s) with
  | none =>
    rw [execInp_of_charIn_none hin] at h
    cases h
  | some answer =>
    obtain ⟨b, u⟩ := answer
    rw [execInp_of_charIn_some hin] at h
    cases h
    exact (charIn_mem hin).trans (charOutAll_mem _ (trapEntry s))

/-- Settles O59: beside the store, whose cell is its target, only reads reach memory, and their polls are in the input
trace (`PolledOnly.of_read_ne`). -/
theorem memoryWrittenByStoresAndPollsOnly : Obligations.MemoryWrittenByStoresAndPollsOnly := by
  intro i s t a h hne
  have unchanged : t.mem ≠ s.mem := fun hmem => hne (by rw [hmem])
  cases i
  case add | addi | and | andi | not | jmp | jsr | jsrr | lea | out | trapUndefined | rti | res =>
    cases h
    exact absurd rfl unchanged
  case br =>
    rw [execBr_next h] at unchanged
    exact absurd rfl unchanged
  case getc => exact absurd (execGetc_mem h) unchanged
  case inp => exact absurd (execInp_mem h) unchanged
  case halt =>
    cases h
    exact absurd (charOutAll_mem _ (trapEntry s)) unchanged
  case ld | ldr =>
    cases h
    exact .inr ((PolledOnly.of_memRead _ s).of_read_ne hne)
  case ldi =>
    cases h
    exact .inr (((PolledOnly.of_memRead _ s).trans (.of_memRead _ _)).of_read_ne hne)
  case puts => exact .inr ((PolledOnly.of_execPuts h).of_read_ne hne)
  case putsp => exact .inr ((PolledOnly.of_execPutsp h).of_read_ne hne)
  case st | str =>
    cases h
    obtain htarget | hbefore := eq_or_read_ne_of_memWrite hne
    · exact .inl (congrArg some htarget.symm)
    · exact absurd rfl hbefore
  case sti =>
    cases h
    obtain htarget | hbefore := eq_or_read_ne_of_memWrite hne
    · exact .inl (congrArg some htarget.symm)
    · exact .inr ((PolledOnly.of_memRead _ s).of_read_ne hbefore)

end Sys2Proof.Machine
end

section
/-! PROOFS. The statements about the encoding (spec/30_encoding.md): decoder and encoder are inverse to each other, the
decoder follows the opcode table, sign extension is the two's-complement widening, and the ignored bits change no
effect. -/

namespace Sys2Proof.Machine

open Sys2Proof.Laws

/-! ### Reading the fields of a word written field by field -/

theorem extractLsb'_append_middle {k m n : Nat} (x : BitVec k) (y : BitVec m) (z : BitVec n) :
    (x ++ y ++ z).extractLsb' n m = y := by
  rw [BitVec.extractLsb'_append_eq_of_le (Nat.le_refl n), Nat.sub_self]
  exact BitVec.extractLsb'_append_eq_right

section
variable (op : BitVec 4)

theorem fieldR0_append_off9 (r : RegIdx) (off : BitVec 9) : fieldR0 (op ++ r ++ off) = r :=
  extractLsb'_append_middle op r off

theorem fieldOff9_append (r : RegIdx) (off : BitVec 9) : fieldOff9 (op ++ r ++ off) = off :=
  BitVec.extractLsb'_append_eq_right

theorem fieldR0_append_off6 (r base : RegIdx) (off : BitVec 6) : fieldR0 (op ++ r ++ base ++ off) = r :=
  (BitVec.extractLsb'_append_eq_of_le (by decide)).trans (extractLsb'_append_middle op r base)

theorem fieldR1_append_off6 (r base : RegIdx) (off : BitVec 6) : fieldR1 (op ++ r ++ base ++ off) = base :=
  extractLsb'_append_middle (op ++ r) base off

theorem fieldOff6_append (r base : RegIdx) (off : BitVec 6) : fieldOff6 (op ++ r ++ base ++ off) = off :=
  BitVec.extractLsb'_append_eq_right

theorem fieldTrapVect_append (u : BitVec 4) (vec : Byte) : fieldTrapVect (op ++ u ++ vec) = vec :=
  BitVec.extractLsb'_append_eq_right

/-- ADD and AND share their register form (R70, R72). -/
theorem decode_registerForm (d a : RegIdx) (u : BitVec 2) (b : RegIdx) :
    decodeAdd (op ++ d ++ a ++ 0#1 ++ u ++ b) = .add d a u b ∧
    decodeAnd (op ++ d ++ a ++ 0#1 ++ u ++ b) = .and d a u b := by
  simp (disch := decide) only [decodeAdd, decodeAnd, fieldImmFlag, fieldR0, fieldR1, fieldR2, BitVec.getLsbD_append,
    BitVec.extractLsb'_append_eq_of_le, BitVec.extractLsb'_append_eq_of_add_le]
  simp

/-- ADD and AND share their immediate form (R71, R73). -/
theorem decode_immediateForm (d a : RegIdx) (imm : BitVec 5) :
    decodeAdd (op ++ d ++ a ++ 1#1 ++ imm) = .addi d a imm ∧
    decodeAnd (op ++ d ++ a ++ 1#1 ++ imm) = .andi d a imm := by
  simp (disch := decide) only [decodeAdd, decodeAnd, fieldImmFlag, fieldR0, fieldR1, fieldImm5, BitVec.getLsbD_append,
    BitVec.extractLsb'_append_eq_of_le, BitVec.extractLsb'_append_eq_of_add_le]
  simp

theorem decodeJsr_jsr (off : BitVec 11) : decodeJsr (op ++ 1#1 ++ off) = .jsr off := by
  simp (disch := decide) only [decodeJsr, fieldLongFlag, fieldOff11, BitVec.getLsbD_append,
    BitVec.extractLsb'_append_eq_of_add_le]
  simp

theorem decodeJsr_jsrr (u : BitVec 2) (base : RegIdx) (v : BitVec 6) :
    decodeJsr (op ++ 0#1 ++ u ++ base ++ v) = .jsrr u base v := by
  simp (disch := decide) only [decodeJsr, fieldLongFlag, fieldR1, BitVec.getLsbD_append,
    BitVec.extractLsb'_append_eq_of_le, BitVec.extractLsb'_append_eq_of_add_le]
  simp

/-- A TRAP is told by its vector: a service by its own, every other vector is undefined (R111). -/
theorem decodeTrap_append (u : BitVec 4) (vec : Byte) :
    decodeTrap (op ++ u ++ vec) =
      if vec = Config.vecGETC then .getc u
      else if vec = Config.vecOUT then .out u
      else if vec = Config.vecPUTS then .puts u
      else if vec = Config.vecIN then .inp u
      else if vec = Config.vecPUTSP then .putsp u
      else if vec = Config.vecHALT then .halt u
      else .trapUndefined u vec := by
  simp only [decodeTrap, fieldTrapVect_append, extractLsb'_append_middle]

theorem decodeTrap_undefined (u : BitVec 4) {vec : Byte} (hwf : (Instr.trapUndefined u vec).wellFormed = true) :
    decodeTrap (op ++ u ++ vec) = .trapUndefined u vec := by
  have hvec : vec ∉ Config.serviceVectors := by simpa [Instr.wellFormed] using hwf
  simp only [Config.serviceVectors, List.mem_cons, List.not_mem_nil, or_false, not_or] at hvec
  simp only [decodeTrap_append, hvec, if_false]

end

/-- The opcode field selects the handler (`OpcodeField`), which reads back what the encoder wrote. -/
theorem decode_encode {c : Config} (hlegal : c.Legal) {i : Instr} (hwf : i.wellFormed = true) :
    decode c (encode c i) = .ok i := by
  cases i
  case add d a u b => rw [decode_opADD hlegal _ (OpcodeField.add d a u b c), encode, (decode_registerForm ..).1]
  case addi d a imm => rw [decode_opADD hlegal _ (OpcodeField.addi d a imm c), encode, (decode_immediateForm ..).1]
  case and d a u b => rw [decode_opAND hlegal _ (OpcodeField.and d a u b c), encode, (decode_registerForm ..).2]
  case andi d a imm => rw [decode_opAND hlegal _ (OpcodeField.andi d a imm c), encode, (decode_immediateForm ..).2]
  case not d a u =>
    rw [decode_opNOT hlegal _ (OpcodeField.not d a u c), encode, fieldR0_append_off6, fieldR1_append_off6,
      ← fieldOff6, fieldOff6_append]
  case br nzp off =>
    rw [decode_opBR hlegal _ (OpcodeField.br nzp off c), encode, fieldCond, ← fieldR0, fieldR0_append_off9,
      fieldOff9_append]
  case jmp u base v =>
    rw [decode_opJMP hlegal _ (OpcodeField.jmp u base v c), encode, ← fieldR0, ← fieldOff6, fieldR0_append_off6,
      fieldR1_append_off6, fieldOff6_append]
  case jsr off => rw [decode_opJSR hlegal _ (OpcodeField.jsr off c), encode, decodeJsr_jsr]
  case jsrr u base v => rw [decode_opJSR hlegal _ (OpcodeField.jsrr u base v c), encode, decodeJsr_jsrr]
  case ld d off =>
    rw [decode_opLD hlegal _ (OpcodeField.ld d off c), encode, fieldR0_append_off9, fieldOff9_append]
  case ldi d off =>
    rw [decode_opLDI hlegal _ (OpcodeField.ldi d off c), encode, fieldR0_append_off9, fieldOff9_append]
  case ldr d base off =>
    rw [decode_opLDR hlegal _ (OpcodeField.ldr d base off c), encode, fieldR0_append_off6, fieldR1_append_off6,
      fieldOff6_append]
  case lea d off =>
    rw [decode_opLEA hlegal _ (OpcodeField.lea d off c), encode, fieldR0_append_off9, fieldOff9_append]
  case st r off =>
    rw [decode_opST hlegal _ (OpcodeField.st r off c), encode, fieldR0_append_off9, fieldOff9_append]
  case sti r off =>
    rw [decode_opSTI hlegal _ (OpcodeField.sti r off c), encode, fieldR0_append_off9, fieldOff9_append]
  case str r base off =>
    rw [decode_opSTR hlegal _ (OpcodeField.str r base off c), encode, fieldR0_append_off6, fieldR1_append_off6,
      fieldOff6_append]
  case getc u =>
    rw [decode_opTRAP hlegal _ (OpcodeField.getc u c), encode, decodeTrap_append]
    rfl
  case out u =>
    rw [decode_opTRAP hlegal _ (OpcodeField.out u c), encode, decodeTrap_append]
    rfl
  case puts u =>
    rw [decode_opTRAP hlegal _ (OpcodeField.puts u c), encode, decodeTrap_append]
    rfl
  case inp u =>
    rw [decode_opTRAP hlegal _ (OpcodeField.inp u c), encode, decodeTrap_append]
    rfl
  case putsp u =>
    rw [decode_opTRAP hlegal _ (OpcodeField.putsp u c), encode, decodeTrap_append]
    rfl
  case halt u =>
    rw [decode_opTRAP hlegal _ (OpcodeField.halt u c), encode, decodeTrap_append]
    rfl
  case trapUndefined u vec =>
    rw [decode_opTRAP hlegal _ (OpcodeField.trapUndefined u vec c), encode, decodeTrap_undefined _ u hwf]
  case rti u => rw [decode_opRTI hlegal _ (OpcodeField.rti u c), encode, BitVec.extractLsb'_append_eq_right]
  case res u => rw [decode_opRES hlegal _ (OpcodeField.res u c), encode, BitVec.extractLsb'_append_eq_right]

/-- Settles O1: `decode_encode`. -/
theorem decodeOfEncodeIsTheInstruction : Obligations.DecodeOfEncodeIsTheInstruction :=
  fun _ _ hlegal hwf => decode_encode hlegal hwf

/-! ### A word as the row of its fields, in each of the formats of R55 -/

theorem extractLsb'_one (w : Word) (k : Nat) : w.extractLsb' k 1 = BitVec.ofBool (w.getLsbD k) := by
  apply BitVec.eq_of_getLsbD_eq
  intro j hj
  obtain rfl : j = 0 := by omega
  simp

section
variable {w : Word} {op : BitVec 4} (hop : fieldOpcode w = op)

include hop

theorem fields_off9 : op ++ fieldR0 w ++ fieldOff9 w = w := by
  simp only [← hop, fieldOpcode, fieldR0, fieldOff9, BitVec.extractLsb'_append_extractLsb'_eq_extractLsb',
    BitVec.extractLsb'_eq_self]

theorem fields_off6 : op ++ fieldR0 w ++ fieldR1 w ++ fieldOff6 w = w := by
  simp only [← hop, fieldOpcode, fieldR0, fieldR1, fieldOff6, BitVec.extractLsb'_append_extractLsb'_eq_extractLsb',
    BitVec.extractLsb'_eq_self]

theorem fields_registerForm :
    op ++ fieldR0 w ++ fieldR1 w ++ BitVec.ofBool (fieldImmFlag w) ++ w.extractLsb' 3 2 ++ fieldR2 w = w := by
  simp only [← hop, fieldOpcode, fieldR0, fieldR1, fieldImmFlag, fieldR2, ← extractLsb'_one,
    BitVec.extractLsb'_append_extractLsb'_eq_extractLsb', BitVec.extractLsb'_eq_self]

theorem fields_immediateForm :
    op ++ fieldR0 w ++ fieldR1 w ++ BitVec.ofBool (fieldImmFlag w) ++ fieldImm5 w = w := by
  simp only [← hop, fieldOpcode, fieldR0, fieldR1, fieldImmFlag, fieldImm5, ← extractLsb'_one,
    BitVec.extractLsb'_append_extractLsb'_eq_extractLsb', BitVec.extractLsb'_eq_self]

theorem fields_off11 : op ++ BitVec.ofBool (fieldLongFlag w) ++ fieldOff11 w = w := by
  simp only [← hop, fieldOpcode, fieldLongFlag, fieldOff11, ← extractLsb'_one,
    BitVec.extractLsb'_append_extractLsb'_eq_extractLsb', BitVec.extractLsb'_eq_self]

theorem fields_jsrr :
    op ++ BitVec.ofBool (fieldLongFlag w) ++ w.extractLsb' 9 2 ++ fieldR1 w ++ fieldOff6 w = w := by
  simp only [← hop, fieldOpcode, fieldLongFlag, fieldR1, fieldOff6, ← extractLsb'_one,
    BitVec.extractLsb'_append_extractLsb'_eq_extractLsb', BitVec.extractLsb'_eq_self]

theorem fields_trap : op ++ w.extractLsb' 8 4 ++ fieldTrapVect w = w := by
  simp only [← hop, fieldOpcode, fieldTrapVect, BitVec.extractLsb'_append_extractLsb'_eq_extractLsb',
    BitVec.extractLsb'_eq_self]

theorem fields_reserved : op ++ w.extractLsb' 0 12 = w := by
  rw [← hop]
  exact BitVec.extractLsb'_append_extractLsb'

end

/-! ### Encoding what a word decodes to -/

section
variable {c : Config} {w : Word}

theorem encode_decodeAdd (hop : fieldOpcode w = c.opADD) : encode c (decodeAdd w) = w := by
  cases hflag : fieldImmFlag w
  · have hw := fields_registerForm hop
    rw [hflag] at hw
    rw [decodeAdd, hflag]
    exact hw
  · have hw := fields_immediateForm hop
    rw [hflag] at hw
    rw [decodeAdd, hflag]
    exact hw

theorem encode_decodeAnd (hop : fieldOpcode w = c.opAND) : encode c (decodeAnd w) = w := by
  cases hflag : fieldImmFlag w
  · have hw := fields_registerForm hop
    rw [hflag] at hw
    rw [decodeAnd, hflag]
    exact hw
  · have hw := fields_immediateForm hop
    rw [hflag] at hw
    rw [decodeAnd, hflag]
    exact hw

theorem encode_decodeJsr (hop : fieldOpcode w = c.opJSR) : encode c (decodeJsr w) = w := by
  cases hflag : fieldLongFlag w
  · have hw := fields_jsrr hop
    rw [hflag] at hw
    rw [decodeJsr, hflag]
    exact hw
  · have hw := fields_off11 hop
    rw [hflag] at hw
    rw [decodeJsr, hflag]
    exact hw

theorem encode_decodeTrap (hop : fieldOpcode w = c.opTRAP) : encode c (decodeTrap w) = w := by
  have hw := fields_trap hop
  simp only [decodeTrap]
  split_ifs with h h h h h h
  case neg => exact hw
  all_goals
    rw [h] at hw
    exact hw

theorem decodeAdd_wellFormed : (decodeAdd w).wellFormed = true := by
  unfold decodeAdd
  split <;> rfl

theorem decodeAnd_wellFormed : (decodeAnd w).wellFormed = true := by
  unfold decodeAnd
  split <;> rfl

theorem decodeJsr_wellFormed : (decodeJsr w).wellFormed = true := by
  unfold decodeJsr
  split <;> rfl

theorem decodeTrap_wellFormed : (decodeTrap w).wellFormed = true := by
  simp only [decodeTrap]
  split_ifs with hgetc hout hputs hin hputsp hhalt
  case neg => simp [Instr.wellFormed, Config.serviceVectors, hgetc, hout, hputs, hin, hputsp, hhalt]
  all_goals rfl

/-- Sixteen distinct opcode numbers of four bits are all there are (R5). -/
theorem mem_opcodes_of_legal (hlegal : c.Legal) (op : BitVec 4) : op ∈ c.opcodes := by
  have hcard : c.opcodes.toFinset.card = Fintype.card (BitVec 4) := List.toFinset_card_of_nodup hlegal.opcodes_nodup
  have hmem := Finset.mem_univ op
  rwa [← (Finset.card_eq_iff_eq_univ _).mp hcard, List.mem_toFinset] at hmem

theorem opcode_cases (hlegal : c.Legal) (op : BitVec 4) :
    op = c.opBR ∨ op = c.opADD ∨ op = c.opLD ∨ op = c.opST ∨ op = c.opJSR ∨ op = c.opAND ∨ op = c.opLDR ∨
    op = c.opSTR ∨ op = c.opRTI ∨ op = c.opNOT ∨ op = c.opLDI ∨ op = c.opSTI ∨ op = c.opJMP ∨ op = c.opRES ∨
    op = c.opLEA ∨ op = c.opTRAP := by
  simpa only [Config.opcodes, List.mem_cons, List.not_mem_nil, or_false] using mem_opcodes_of_legal hlegal op

end

/-- Settles O2: one of the sixteen numbers stands in the opcode field, and the fields its handler reads make up the
word. -/
theorem everyWordDecodesAndEncodesBack : Obligations.EveryWordDecodesAndEncodesBack := by
  intro c w hlegal
  obtain h | h | h | h | h | h | h | h | h | h | h | h | h | h | h | h := opcode_cases hlegal (fieldOpcode w)
  · exact ⟨_, decode_opBR hlegal w h, rfl, fields_off9 h⟩
  · exact ⟨_, decode_opADD hlegal w h, decodeAdd_wellFormed, encode_decodeAdd h⟩
  · exact ⟨_, decode_opLD hlegal w h, rfl, fields_off9 h⟩
  · exact ⟨_, decode_opST hlegal w h, rfl, fields_off9 h⟩
  · exact ⟨_, decode_opJSR hlegal w h, decodeJsr_wellFormed, encode_decodeJsr h⟩
  · exact ⟨_, decode_opAND hlegal w h, decodeAnd_wellFormed, encode_decodeAnd h⟩
  · exact ⟨_, decode_opLDR hlegal w h, rfl, fields_off6 h⟩
  · exact ⟨_, decode_opSTR hlegal w h, rfl, fields_off6 h⟩
  · exact ⟨_, decode_opRTI hlegal w h, rfl, fields_reserved h⟩
  · exact ⟨_, decode_opNOT hlegal w h, rfl, fields_off6 h⟩
  · exact ⟨_, decode_opLDI hlegal w h, rfl, fields_off9 h⟩
  · exact ⟨_, decode_opSTI hlegal w h, rfl, fields_off9 h⟩
  · exact ⟨_, decode_opJMP hlegal w h, rfl, fields_off6 h⟩
  · exact ⟨_, decode_opRES hlegal w h, rfl, fields_reserved h⟩
  · exact ⟨_, decode_opLEA hlegal w h, rfl, fields_off9 h⟩
  · exact ⟨_, decode_opTRAP hlegal w h, decodeTrap_wellFormed, encode_decodeTrap h⟩

/-! ### What the masks of the opcode table leave of a word (R64) -/

section
variable (w : Word)

theorem and_opcodeMask : w &&& 0xF000 = fieldOpcode w ++ 0#12 := by
  calc w &&& 0xF000
    _ = (fieldOpcode w ++ w.extractLsb' 0 12) &&& (BitVec.allOnes 4 ++ 0#12) := by rw [fields_reserved rfl]; rfl
    _ = fieldOpcode w ++ 0#12 := by rw [BitVec.and_append, BitVec.and_allOnes, BitVec.and_zero]

theorem and_immFlagMask :
    w &&& 0xF020 = fieldOpcode w ++ 0#3 ++ 0#3 ++ BitVec.ofBool (fieldImmFlag w) ++ 0#5 := by
  calc w &&& 0xF020
    _ = (fieldOpcode w ++ fieldR0 w ++ fieldR1 w ++ BitVec.ofBool (fieldImmFlag w) ++ fieldImm5 w) &&&
          (BitVec.allOnes 4 ++ 0#3 ++ 0#3 ++ BitVec.allOnes 1 ++ 0#5) := by rw [fields_immediateForm rfl]; rfl
    _ = _ := by simp only [BitVec.and_append, BitVec.and_allOnes, BitVec.and_zero]

theorem and_longFlagMask : w &&& 0xF800 = fieldOpcode w ++ BitVec.ofBool (fieldLongFlag w) ++ 0#11 := by
  calc w &&& 0xF800
    _ = (fieldOpcode w ++ BitVec.ofBool (fieldLongFlag w) ++ fieldOff11 w) &&&
          (BitVec.allOnes 4 ++ BitVec.allOnes 1 ++ 0#11) := by rw [fields_off11 rfl]; rfl
    _ = _ := by simp only [BitVec.and_append, BitVec.and_allOnes, BitVec.and_zero]

theorem and_vectorMask : w &&& 0xF0FF = fieldOpcode w ++ 0#4 ++ fieldTrapVect w := by
  calc w &&& 0xF0FF
    _ = (fieldOpcode w ++ w.extractLsb' 8 4 ++ fieldTrapVect w) &&&
          (BitVec.allOnes 4 ++ 0#4 ++ BitVec.allOnes 8) := by rw [fields_trap rfl]; rfl
    _ = _ := by simp only [BitVec.and_append, BitVec.and_allOnes, BitVec.and_zero]

end

/-! ### The first row a word meets -/

/-- A word meets a row of the opcode table (R64). -/
def meets (w : Word) (row : TableRow) : Bool := w &&& row.mask == row.pattern

/-- The rows of one opcode number, in the table's order. -/
def rowsOf (op : BitVec 4) : List TableRow := opcodeTable.filter (fun row => fieldOpcode row.pattern == op)

/-- Every mask covers the whole opcode field, so a word meets rows of its own opcode number alone. -/
theorem find?_opcodeTable (w : Word) : opcodeTable.find? (meets w) = (rowsOf (fieldOpcode w)).find? (meets w) := by
  have hcover : ∀ row ∈ opcodeTable, fieldOpcode row.mask = BitVec.allOnes 4 := by decide
  have hopcode : ∀ row ∈ opcodeTable, meets w row = true → fieldOpcode row.pattern = fieldOpcode w := by
    intro row hrow hmet
    rw [← beq_iff_eq.mp hmet, fieldOpcode, BitVec.extractLsb'_and, ← fieldOpcode, ← fieldOpcode, hcover row hrow,
      BitVec.and_allOnes]
  rw [rowsOf, List.find?_filter]
  refine List.find?_congr fun row hrow => ?_
  rw [Bool.eq_iff_iff]
  simpa using hopcode row hrow

section
variable {w : Word}

/-- A row that has its opcode number to itself is met by every word of that number. -/
theorem find?_of_only_row {op : BitVec 4} {mnemonic : String} (hop : fieldOpcode w = op)
    (hrows : rowsOf op = [⟨mnemonic, 0xF000, op ++ 0#12⟩]) :
    opcodeTable.find? (meets w) = some ⟨mnemonic, 0xF000, op ++ 0#12⟩ := by
  simp only [find?_opcodeTable, hop, hrows, List.find?, meets, and_opcodeMask, beq_self_eq_true]

theorem find?_decodeAdd (hop : fieldOpcode w = 1) : opcodeTable.find? (meets w) = some (tableRow (decodeAdd w)) := by
  have hrows : rowsOf 1 = [⟨"ADD", 0xF020, 0x1000⟩, ⟨"ADDI", 0xF020, 0x1020⟩] := rfl
  have hbits := and_immFlagMask w
  rw [hop] at hbits
  rw [find?_opcodeTable, hop, hrows]
  cases hflag : fieldImmFlag w
  all_goals
    rw [hflag] at hbits
    simp only [List.find?, meets, hbits, decodeAdd, hflag]
    rfl

theorem find?_decodeAnd (hop : fieldOpcode w = 5) : opcodeTable.find? (meets w) = some (tableRow (decodeAnd w)) := by
  have hrows : rowsOf 5 = [⟨"AND", 0xF020, 0x5000⟩, ⟨"ANDI", 0xF020, 0x5020⟩] := rfl
  have hbits := and_immFlagMask w
  rw [hop] at hbits
  rw [find?_opcodeTable, hop, hrows]
  cases hflag : fieldImmFlag w
  all_goals
    rw [hflag] at hbits
    simp only [List.find?, meets, hbits, decodeAnd, hflag]
    rfl

theorem find?_decodeJsr (hop : fieldOpcode w = 4) : opcodeTable.find? (meets w) = some (tableRow (decodeJsr w)) := by
  have hrows : rowsOf 4 = [⟨"JSR", 0xF800, 0x4800⟩, ⟨"JSRR", 0xF800, 0x4000⟩] := rfl
  have hbits := and_longFlagMask w
  rw [hop] at hbits
  rw [find?_opcodeTable, hop, hrows]
  cases hflag : fieldLongFlag w
  all_goals
    rw [hflag] at hbits
    simp only [List.find?, meets, hbits, decodeJsr, hflag]
    rfl

/-- The row of the service with the given vector. -/
def serviceRow (mnemonic : String) (vec : Byte) : TableRow := ⟨mnemonic, 0xF0FF, 0xF#4 ++ 0#4 ++ vec⟩

theorem meets_serviceRow (hop : fieldOpcode w = 15) (mnemonic : String) (vec : Byte) :
    meets w (serviceRow mnemonic vec) = decide (fieldTrapVect w = vec) := by
  rw [meets, serviceRow, and_vectorMask, hop, Bool.eq_iff_iff, beq_iff_eq, decide_eq_true_eq]
  exact BitVec.append_right_inj _

/-- The rows of TRAP stand in the order in which `decodeTrap` asks for the vectors. -/
theorem find?_decodeTrap (hop : fieldOpcode w = 15) : opcodeTable.find? (meets w) = some (tableRow (decodeTrap w)) := by
  have hrows : rowsOf 15 = [serviceRow "GETC" Config.vecGETC, serviceRow "OUT" Config.vecOUT,
      serviceRow "PUTS" Config.vecPUTS, serviceRow "IN" Config.vecIN, serviceRow "PUTSP" Config.vecPUTSP,
      serviceRow "HALT" Config.vecHALT, ⟨"TRAP_UNDEFINED", 0xF000, 0xF000⟩] := rfl
  have hundefined : meets w ⟨"TRAP_UNDEFINED", 0xF000, 0xF000⟩ = true := by
    rw [meets, and_opcodeMask, hop]
    rfl
  rw [find?_opcodeTable, hop, hrows]
  simp only [List.find?, meets_serviceRow hop, hundefined, decodeTrap]
  split_ifs with hgetc hout hputs hin hputsp hhalt <;> simp only [*, decide_true, decide_false] <;> rfl

end

theorem default_legal : Config.default.Legal := by decide

/-- Settles O4: by the opcode number; ADD, AND, JSR and TRAP have several rows, told apart as their handlers do. -/
theorem decoderFollowsTheOpcodeTable : Obligations.DecoderFollowsTheOpcodeTable := by
  intro w
  have hl := default_legal
  obtain h | h | h | h | h | h | h | h | h | h | h | h | h | h | h | h := opcode_cases hl (fieldOpcode w)
  · exact ⟨_, decode_opBR hl w h, find?_of_only_row h rfl⟩
  · exact ⟨_, decode_opADD hl w h, find?_decodeAdd h⟩
  · exact ⟨_, decode_opLD hl w h, find?_of_only_row h rfl⟩
  · exact ⟨_, decode_opST hl w h, find?_of_only_row h rfl⟩
  · exact ⟨_, decode_opJSR hl w h, find?_decodeJsr h⟩
  · exact ⟨_, decode_opAND hl w h, find?_decodeAnd h⟩
  · exact ⟨_, decode_opLDR hl w h, find?_of_only_row h rfl⟩
  · exact ⟨_, decode_opSTR hl w h, find?_of_only_row h rfl⟩
  · exact ⟨_, decode_opRTI hl w h, find?_of_only_row h rfl⟩
  · exact ⟨_, decode_opNOT hl w h, find?_of_only_row h rfl⟩
  · exact ⟨_, decode_opLDI hl w h, find?_of_only_row h rfl⟩
  · exact ⟨_, decode_opSTI hl w h, find?_of_only_row h rfl⟩
  · exact ⟨_, decode_opJMP hl w h, find?_of_only_row h rfl⟩
  · exact ⟨_, decode_opRES hl w h, find?_of_only_row h rfl⟩
  · exact ⟨_, decode_opLEA hl w h, find?_of_only_row h rfl⟩
  · exact ⟨_, decode_opTRAP hl w h, find?_decodeTrap h⟩

/-- Settles O3: nine closed words, by evaluation of the decoder. -/
theorem manualWordsDecode : Obligations.ManualWordsDecode := by
  unfold Obligations.ManualWordsDecode
  decide

/-! ### Sign extension, bit by bit -/

theorem getLsbD_and_lowMask {n : Nat} (hn : n ≤ 16) (v : Word) (j : Nat) :
    (v &&& lowMask n).getLsbD j = (decide (j < n) && v.getLsbD j) := by
  have hmask : (lowMask n).getLsbD j = decide (j < n) := by
    rw [lowMask, BitVec.getLsbD_ofNat, Nat.testBit_two_pow_sub_one, Bool.and_eq_right_iff_imp, decide_eq_true_eq,
      decide_eq_true_eq]
    omega
  rw [BitVec.getLsbD_and, hmask, Bool.and_comm]

theorem getLsbD_ones_shiftLeft (n : Nat) {j : Nat} (hj : j < 16) : (0xFFFF#16 <<< n).getLsbD j = !decide (j < n) := by
  have hone : (BitVec.allOnes 16).getLsbD (j - n) = true := by
    rw [BitVec.getLsbD_allOnes, decide_eq_true (by omega)]
  rw [BitVec.getLsbD_shiftLeft, show 0xFFFF#16 = BitVec.allOnes 16 from rfl, hone, decide_eq_true hj, Bool.true_and,
    Bool.and_true]

section
variable {n : Nat} (hpos : 1 ≤ n) (hn : n ≤ 16) (v : Word)

include hpos hn

theorem getLsbD_sext {j : Nat} (hj : j < 16) :
    (sext n v).getLsbD j = if j < n then v.getLsbD j else v.getLsbD (n - 1) := by
  have hsign : (v &&& lowMask n).getLsbD (n - 1) = v.getLsbD (n - 1) := by
    rw [getLsbD_and_lowMask hn, decide_eq_true (by omega), Bool.true_and]
  rw [sext, hsign]
  cases hbit : v.getLsbD (n - 1)
  · rw [if_neg Bool.false_ne_true, getLsbD_and_lowMask hn]
    by_cases hjn : j < n <;> simp [hjn]
  · rw [if_pos rfl, BitVec.getLsbD_or, getLsbD_and_lowMask hn, getLsbD_ones_shiftLeft n hj]
    by_cases hjn : j < n <;> simp [hjn]

theorem sext_eq_signExtend : sext n v = (v.setWidth n).signExtend 16 := by
  have hsign : (v.setWidth n).msb = v.getLsbD (n - 1) := by
    rw [BitVec.msb_eq_getLsbD_last, BitVec.getLsbD_setWidth, decide_eq_true (by omega), Bool.true_and]
  apply BitVec.eq_of_getLsbD_eq
  intro j hj
  rw [getLsbD_sext hpos hn v hj, BitVec.getLsbD_signExtend, hsign, decide_eq_true hj, Bool.true_and]
  split
  next hjn => rw [BitVec.getLsbD_setWidth, decide_eq_true hjn, Bool.true_and]
  next => rfl

theorem sext_sext : sext n (sext n v) = sext n v := by
  apply BitVec.eq_of_getLsbD_eq
  intro j hj
  have htop : (sext n v).getLsbD (n - 1) = v.getLsbD (n - 1) := by
    rw [getLsbD_sext hpos hn v (by omega), if_pos (by omega)]
  rw [getLsbD_sext hpos hn _ hj, htop, getLsbD_sext hpos hn v hj]
  split <;> rfl

end

theorem setWidth_and_lowMask {n : Nat} (hn : n ≤ 16) (v : Word) : (v &&& lowMask n).setWidth n = v.setWidth n := by
  apply BitVec.eq_of_getLsbD_eq
  intro j hj
  simp only [BitVec.getLsbD_setWidth, getLsbD_and_lowMask hn, hj, decide_true, Bool.true_and]

/-- Settles O6: `sext_eq_signExtend` after the cut to `n` bits, and `sext_sext`. -/
theorem signExtensionWidensTwosComplement : Obligations.SignExtensionWidensTwosComplement := fun n x hpos hn =>
  ⟨by rw [sext_eq_signExtend hpos hn, setWidth_and_lowMask hn], sext_sext hpos hn _⟩

/-! ### The ignored bits -/

/-- The fatal stop an instruction ends in whatever the state: what has been done by then, and the cause (R141). -/
def fatalStop : Instr → State → Option (State × FatalCause)
  | .trapUndefined _ _, s => some (trapEntry s, .undefinedTrapVector)
  | .rti _, s => some (s, .illegalOpcode)
  | .res _, s => some (s, .illegalOpcode)
  | _, _ => none

theorem fatalStop_customary (i : Instr) (s : State) : fatalStop (customary i) s = fatalStop i s := by
  cases i <;> rfl

theorem exec_of_fatalStop_some {i : Instr} {s t : State} {cause : FatalCause} (h : fatalStop i s = some (t, cause)) :
    exec i s = .next (t.setRun (.fatal cause (encode s.cfg i))) := by
  cases i
  case trapUndefined | rti | res =>
    cases h
    rfl
  all_goals cases h

/-- An instruction that is no fatal stop does not look at its ignored bits. -/
theorem exec_customary {i : Instr} {s : State} (h : fatalStop i s = none) : exec (customary i) s = exec i s := by
  cases i
  case trapUndefined | rti | res => cases h
  all_goals rfl

/-- Settles O5: both instructions are the same fatal stop, or both do what their common customary form does. -/
theorem ignoredBitsChangeNoEffect : Obligations.IgnoredBitsChangeNoEffect := by
  intro i j s hij
  have hstop : fatalStop i s = fatalStop j s := by rw [← fatalStop_customary i, hij, fatalStop_customary]
  cases hj : fatalStop j s with
  | none => exact .inl (by rw [← exec_customary (hstop.trans hj), hij, exec_customary hj])
  | some stop =>
    obtain ⟨t, cause⟩ := stop
    exact .inr ⟨t, cause, exec_of_fatalStop_some (hstop.trans hj), exec_of_fatalStop_some hj⟩

/-! ### The step -/

/-- Settles O13: `step_of_decode_ok`, where the read of the fetch leaves `pc` alone. -/
theorem stepFetchesIncrementsAndExecutes : Obligations.StepFetchesIncrementsAndExecutes := by
  intro s i hrun hdecode
  have hfetch : (fetch s).2 = (memRead s.pc s).2.setPc (s.pc + 1) := by rw [fetch, memRead_pc]
  rw [step_of_decode_ok hrun hdecode, hfetch]

end Sys2Proof.Machine
end

section
/-! PROOFS. The statements about the arithmetic and bitwise instructions (spec/40_alu.md). Each has the same three
parts: the decoder splits on imm_flag, the instruction writes one result, and that result is the operation the spec
names. -/

namespace Sys2Proof

/-! ### ADD and AND split on imm_flag (40_alu.md R70 to R73) -/

section
variable {w : Word}

theorem decodeAdd_of_immFlag_clear (h : fieldImmFlag w = false) :
    decodeAdd w = .add (fieldR0 w) (fieldR1 w) (w.extractLsb' 3 2) (fieldR2 w) := if_neg (Bool.eq_false_iff.mp h)

theorem decodeAdd_of_immFlag_set (h : fieldImmFlag w = true) :
    decodeAdd w = .addi (fieldR0 w) (fieldR1 w) (fieldImm5 w) := if_pos h

theorem decodeAnd_of_immFlag_clear (h : fieldImmFlag w = false) :
    decodeAnd w = .and (fieldR0 w) (fieldR1 w) (w.extractLsb' 3 2) (fieldR2 w) := if_neg (Bool.eq_false_iff.mp h)

theorem decodeAnd_of_immFlag_set (h : fieldImmFlag w = true) :
    decodeAnd w = .andi (fieldR0 w) (fieldR1 w) (fieldImm5 w) := if_pos h

end

end Sys2Proof

namespace Sys2Proof.Machine

/-! ### The second operand of the immediate forms -/

/-- The sign extension of an instruction field is the two's-complement widening of its bits (30_encoding.md R58, R59). -/
theorem sextField_eq_signExtend {n : Nat} (hpos : 1 ≤ n) (hn : n ≤ 16) (f : BitVec n) :
    sextField f = f.signExtend 16 := by
  rw [sextField, sext_eq_signExtend hpos hn, BitVec.setWidth_setWidth_of_le f hn, BitVec.setWidth_eq]

/-! ### An instruction that writes one result -/

/-- A result sets the flags by what its register then holds; beside that register and `cond` everything is as before. -/
theorem writeResult_frame (d : RegIdx) (v : Word) (s : State) :
    (writeResult d v s).cond = condFor s.cfg ((writeResult d v s).reg d) ∧
    RegsKeptBut [d] s (writeResult d v s) ∧ (writeResult d v s).pc = s.pc ∧ CellsKept s (writeResult d v s) ∧
    (writeResult d v s).env = s.env ∧ ControlKept s (writeResult d v s) := by
  refine ⟨?_, fun r hr => ?_, rfl, fun _ => rfl, rfl, rfl, rfl⟩
  · rw [writeResult_cond, writeResult_reg_same]
  · exact writeResult_reg_of_ne d v s (List.ne_of_not_mem_cons hr)

/-! ### The five instructions -/

/-- Settles O25: the result is the sum of the two registers, which `BitVec.toNat_add` takes modulo 2^16. -/
theorem addRegisterForm : Obligations.AddRegisterForm := by
  refine ⟨fun c w hlegal hop himm => ?_, fun d a b u s => ⟨_, rfl, ?_, writeResult_frame d _ s⟩⟩
  · exact (decode_opADD hlegal w hop).trans (congrArg Except.ok (decodeAdd_of_immFlag_clear himm))
  · rw [writeResult_reg_same, BitVec.toNat_add]

/-- Settles O26: the second operand by `sextField_eq_signExtend` for 5 bits. -/
theorem addImmediateForm : Obligations.AddImmediateForm := by
  refine ⟨fun c w hlegal hop himm => ?_, fun d a imm s => ⟨_, rfl, ?_, writeResult_frame d _ s⟩⟩
  · exact (decode_opADD hlegal w hop).trans (congrArg Except.ok (decodeAdd_of_immFlag_set himm))
  · rw [writeResult_reg_same, sextField_eq_signExtend (by decide) (by decide)]

/-- Settles O27: the result is the AND of the two registers, bit by bit. -/
theorem andRegisterForm : Obligations.AndRegisterForm := by
  refine ⟨fun c w hlegal hop himm => ?_, fun d a b u s => ⟨_, rfl, fun n _ => ?_, writeResult_frame d _ s⟩⟩
  · exact (decode_opAND hlegal w hop).trans (congrArg Except.ok (decodeAnd_of_immFlag_clear himm))
  · rw [writeResult_reg_same, BitVec.getLsbD_and]

/-- Settles O28: the immediate is widened by `sextField_eq_signExtend` before the AND. -/
theorem andImmediateForm : Obligations.AndImmediateForm := by
  refine ⟨fun c w hlegal hop himm => ?_, fun d a imm s => ⟨_, rfl, ?_, writeResult_frame d _ s⟩⟩
  · exact (decode_opAND hlegal w hop).trans (congrArg Except.ok (decodeAnd_of_immFlag_set himm))
  · rw [writeResult_reg_same, sextField_eq_signExtend (by decide) (by decide)]

/-- Settles O29: the complement of a 16-bit value is its distance from 0xFFFF. -/
theorem notComplements : Obligations.NotComplements := by
  refine ⟨fun c w hlegal hop => decode_opNOT hlegal w hop, fun d a u s => ⟨_, rfl, ?_, writeResult_frame d _ s⟩⟩
  rw [writeResult_reg_same, BitVec.toNat_not]

end Sys2Proof.Machine
end

section
/-! PROOFS. The statements about the control transfers (spec/41_control.md): where each one goes, and that beside `pc`,
and R7 in the two subroutine calls, everything is as before. -/

namespace Sys2Proof

/-! ### The JSR opcode splits on long_flag (41_control.md R83, R84) -/

section
variable {w : Word}

theorem decodeJsr_of_longFlag_set (h : fieldLongFlag w = true) : decodeJsr w = .jsr (fieldOff11 w) := if_pos h

theorem decodeJsr_of_longFlag_clear (h : fieldLongFlag w = false) :
    decodeJsr w = .jsrr (w.extractLsb' 9 2) (fieldR1 w) (w.extractLsb' 0 6) := if_neg (Bool.eq_false_iff.mp h)

end

/-! ### A flag value has a bit set (10_state.md R16) -/

theorem Config.ne_zero_of_oneHot {f : BitVec 3} (h : Config.oneHot f = true) : f ≠ 0 := by
  rintro rfl
  exact absurd h (by decide)

end Sys2Proof

namespace Sys2Proof.Machine

theorem Inv.cond_ne_zero {s : State} (h : Inv s) : s.cond ≠ 0 := by
  obtain ⟨-, ⟨hpos, hzro, hneg⟩, -, -⟩ := h.legal
  rcases h.oneHot with hcond | hcond | hcond <;> rw [hcond]
  · exact Config.ne_zero_of_oneHot hpos
  · exact Config.ne_zero_of_oneHot hzro
  · exact Config.ne_zero_of_oneHot hneg

/-! ### Targets and frames -/

/-- The target of BR and JSR, by the two's-complement widening of the offset (30_encoding.md R59). -/
theorem pcRelative_eq_signExtend {n : Nat} (hpos : 1 ≤ n) (hn : n ≤ 16) (off : BitVec n) (s : State) :
    pcRelative off s = s.pc + off.signExtend 16 :=
  congrArg (s.pc + ·) (sextField_eq_signExtend hpos hn off)

theorem setPc_frame (v : Word) (s : State) :
    (s.setPc v).cond = s.cond ∧ RegsKeptBut [] s (s.setPc v) ∧ CellsKept s (s.setPc v) ∧ (s.setPc v).env = s.env ∧
    ControlKept s (s.setPc v) :=
  ⟨rfl, fun _ _ => rfl, fun _ => rfl, rfl, rfl, rfl⟩

/-- The end of JSR and JSRR: the return address in R7, `pc` at the target. -/
def linkedJump (target : Word) (s : State) : State := (s.setReg 7#3 s.pc).setPc target

theorem linkedJump_pc (target : Word) (s : State) : (linkedJump target s).pc = target := rfl

theorem linkedJump_reg_seven (target : Word) (s : State) : (linkedJump target s).reg 7#3 = s.pc :=
  s.reg_setReg_same 7#3 s.pc

theorem linkedJump_frame (target : Word) (s : State) :
    (linkedJump target s).cond = s.cond ∧ RegsKeptBut [7] s (linkedJump target s) ∧
    CellsKept s (linkedJump target s) ∧ (linkedJump target s).env = s.env ∧ ControlKept s (linkedJump target s) :=
  ⟨rfl, fun _ hr => s.reg_setReg_of_ne (List.ne_of_not_mem_cons hr) s.pc, fun _ => rfl, rfl, rfl, rfl⟩

/-! ### What each instruction does, as a whole state -/

section
variable {nzp : BitVec 3} {s : State}

theorem exec_br_of_taken (h : nzp &&& s.cond ≠ 0) (off : BitVec 9) :
    exec (.br nzp off) s = .next (s.setPc (s.pc + off.signExtend 16)) := by
  rw [← pcRelative_eq_signExtend (by decide) (by decide)]
  exact congrArg Host.Outcome.next (if_pos ((branchTaken_iff nzp s).mpr h))

theorem exec_br_of_not_taken (h : nzp &&& s.cond = 0) (off : BitVec 9) : exec (.br nzp off) s = .next s :=
  congrArg Host.Outcome.next (if_neg fun htaken => (branchTaken_iff nzp s).mp htaken h)

end

theorem exec_jsr (off : BitVec 11) (s : State) :
    exec (.jsr off) s = .next (linkedJump (s.pc + off.signExtend 16) s) := by
  rw [← pcRelative_eq_signExtend (by decide) (by decide)]
  rfl

theorem exec_jsrr (u : BitVec 2) (base : RegIdx) (v : BitVec 6) (s : State) :
    exec (.jsrr u base v) s = .next (linkedJump ((s.setReg 7#3 s.pc).reg base) s) := rfl

/-! ### The five statements -/

/-- Settles O30: by whether the field meets `cond`; a branch not taken leaves the state as it is. -/
theorem branchIsTakenOnAMatchingFlag : Obligations.BranchIsTakenOnAMatchingFlag := by
  refine ⟨fun c w hlegal hop => decode_opBR hlegal w hop, fun nzp off s => ?_⟩
  by_cases hmeets : nzp &&& s.cond = 0
  · exact ⟨s, exec_br_of_not_taken hmeets off, fun htaken => absurd hmeets htaken, fun _ => rfl, setPc_frame s.pc s⟩
  · exact ⟨_, exec_br_of_taken hmeets off, fun _ => rfl, fun hnot => absurd hnot hmeets, setPc_frame _ s⟩

/-- Settles O31: the field 111 meets every `cond` but 000, which no state of the invariant has. -/
theorem degenerateBranches : Obligations.DegenerateBranches := by
  intro off s hinv
  have hmeets : 0b111#3 &&& s.cond ≠ 0 := by
    rw [show (0b111#3) = BitVec.allOnes 3 by decide, BitVec.allOnes_and]
    exact hinv.cond_ne_zero
  exact ⟨exec_br_empty off s, exec_br_of_taken hmeets off⟩

/-- Settles O32: JMP moves `pc` alone, so `setPc_frame` is its frame. -/
theorem jumpGoesToTheBaseRegister : Obligations.JumpGoesToTheBaseRegister :=
  ⟨fun _ w hlegal hop => decode_opJMP hlegal w hop, fun _ _ _ s => ⟨_, rfl, rfl, setPc_frame _ s⟩⟩

/-- Settles O33: JSR is a `linkedJump` to its PC-relative target. -/
theorem jumpToSubroutineLinksAndJumps : Obligations.JumpToSubroutineLinksAndJumps := by
  refine ⟨fun c w hlegal hop hlong => ?_, fun off s => ?_⟩
  · exact (decode_opJSR hlegal w hop).trans (congrArg Except.ok (decodeJsr_of_longFlag_set hlong))
  · exact ⟨_, exec_jsr off s, linkedJump_reg_seven _ s, linkedJump_pc _ s, linkedJump_frame _ s⟩

/-- Settles O34: JSRR is a `linkedJump` to what the base register holds once R7 is written (D18), so base R7 gives the
incremented PC. -/
theorem jumpToSubroutineThroughRegister : Obligations.JumpToSubroutineThroughRegister := by
  refine ⟨fun c w hlegal hop hshort => ?_, fun u base v s => ?_⟩
  · exact (decode_opJSR hlegal w hop).trans (congrArg Except.ok (decodeJsr_of_longFlag_clear hshort))
  · refine ⟨_, exec_jsrr u base v s, linkedJump_reg_seven _ s, fun hne => ?_, fun heq => ?_, linkedJump_frame _ s⟩
    · rw [linkedJump_pc]
      exact s.reg_setReg_of_ne hne s.pc
    · rw [linkedJump_pc, heq]
      exact s.reg_setReg_same 7#3 s.pc

end Sys2Proof.Machine
end

section
/-! PROOFS. The statements about the loads (spec/42_load.md). LD, LDI and LDR end alike: one MemRead, whose value is the
result. LEA makes no read. -/

namespace Sys2Proof.Machine

/-! ### Addresses and frames -/

/-- The address of LDR and STR, by the two's-complement widening of the offset (30_encoding.md R59). -/
theorem baseRelative_eq_signExtend (base : RegIdx) (off : BitVec 6) (s : State) :
    baseRelative base off s = s.reg base + off.signExtend 16 :=
  congrArg (s.reg base + ·) (sextField_eq_signExtend (by decide) (by decide) off)

theorem TalkedOnly.cellsKeptBut {s t : State} (h : TalkedOnly s t) :
    CellsKeptBut [s.cfg.kbsrAddr, s.cfg.kbdrAddr] s t := by
  intro a ha
  obtain ⟨hs, hd⟩ : a ≠ s.cfg.kbsrAddr ∧ a ≠ s.cfg.kbdrAddr := by simpa using ha
  exact h.cells a hs hd

/-! ### The end of a load: one MemRead into a register (42_load.md R94) -/

/-- What LD and LDR do once the address is known, and LDI once its pointer is. -/
def loadFrom (d : RegIdx) (a : Word) (s : State) : State := writeResult d (memRead a s).1 (memRead a s).2

section
variable (d : RegIdx) (a : Word) {s p : State}

theorem loadFrom_reg_same : (loadFrom d a s).reg d = (memRead a s).1 := writeResult_reg_same ..

theorem loadFrom_cellsKept : CellsKept (memRead a s).2 (loadFrom d a s) := fun _ => rfl

theorem loadFrom_env : (loadFrom d a s).env = (memRead a s).2.env := rfl

/-- Off the status address the read has no effect, so memory and environment are as before. -/
theorem loadFrom_of_ne {a : Word} (ha : a ≠ s.cfg.kbsrAddr) :
    CellsKept s (loadFrom d a s) ∧ (loadFrom d a s).env = s.env := by
  rw [loadFrom, memRead_of_ne ha]
  exact ⟨fun _ => rfl, rfl⟩

/-- `s` is the state before the pointer read of LDI, where there is one. -/
theorem loadFrom_cond (h : TalkedOnly s p) : (loadFrom d a p).cond = condFor s.cfg ((loadFrom d a p).reg d) := by
  rw [loadFrom_reg_same, loadFrom, writeResult_cond, memRead_cfg, h.cfg]

/-- However many reads a load makes, they touch the keyboard cells at most, and its destination is the one register it
writes. -/
theorem loadFrom_frame (h : TalkedOnly s p) :
    CellsKeptBut [s.cfg.kbsrAddr, s.cfg.kbdrAddr] s (loadFrom d a p) ∧ RegsKeptBut [d] s (loadFrom d a p) ∧
    (loadFrom d a p).pc = s.pc ∧ ControlKept s (loadFrom d a p) := by
  have hread : TalkedOnly s (memRead a p).2 := h.trans (.of_memRead a p)
  refine ⟨hread.cellsKeptBut, fun r hr => ?_, hread.pc, hread.run, hread.cfg⟩
  rw [loadFrom, writeResult_reg_of_ne _ _ _ (List.ne_of_not_mem_cons hr), hread.reg]

end

/-! ### What each instruction does, as a whole state -/

theorem exec_ld (d : RegIdx) (off : BitVec 9) (s : State) :
    exec (.ld d off) s = .next (loadFrom d (s.pc + off.signExtend 16) s) := by
  rw [← pcRelative_eq_signExtend (by decide) (by decide)]
  rfl

/-- The second read starts from the state the first one leaves (R91). -/
theorem exec_ldi {off : BitVec 9} {s p : State} {ea : Word} (h : memRead (s.pc + off.signExtend 16) s = (ea, p))
    (d : RegIdx) : exec (.ldi d off) s = .next (loadFrom d ea p) := by
  rw [← pcRelative_eq_signExtend (by decide) (by decide)] at h
  simp only [exec, execLdi, h, loadFrom]

theorem exec_ldr (d base : RegIdx) (off : BitVec 6) (s : State) :
    exec (.ldr d base off) s = .next (loadFrom d (s.reg base + off.signExtend 16) s) := by
  rw [← baseRelative_eq_signExtend]
  rfl

theorem exec_lea (d : RegIdx) (off : BitVec 9) (s : State) :
    exec (.lea d off) s = .next (writeResult d (s.pc + off.signExtend 16) s) := by
  rw [← pcRelative_eq_signExtend (by decide) (by decide)]
  rfl

/-! ### The four statements -/

/-- Settles O35: LD is a `loadFrom` its PC-relative address. -/
theorem loadPcRelative : Obligations.LoadPcRelative :=
  ⟨fun _ w hlegal hop => decode_opLD hlegal w hop, fun d off s =>
    ⟨_, exec_ld d off s, loadFrom_reg_same d _, loadFrom_cond d _ (.refl s), loadFrom_cellsKept d _, loadFrom_env d _,
      loadFrom_of_ne d, loadFrom_frame d _ (.refl s)⟩⟩

/-- Settles O36: LDI is a `loadFrom` its pointer, in the state `p` the pointer read leaves, which is `s` itself when that
read was off the status address. -/
theorem loadIndirect : Obligations.LoadIndirect := by
  refine ⟨fun c w hlegal hop => decode_opLDI hlegal w hop, fun d off s p ea hptr => ?_⟩
  have hpolled : TalkedOnly s p := by
    have hread := TalkedOnly.of_memRead (s.pc + off.signExtend 16) s
    rwa [hptr] at hread
  refine ⟨_, exec_ldi hptr d, loadFrom_reg_same d _, loadFrom_cond d _ hpolled, loadFrom_cellsKept d _,
    loadFrom_env d _, fun haddr hea => ?_, loadFrom_frame d _ hpolled⟩
  obtain rfl : s = p := congrArg Prod.snd ((memRead_of_ne haddr).symm.trans hptr)
  exact loadFrom_of_ne d hea

/-- Settles O37: LDR is a `loadFrom` its base-relative address, which is computed before the destination is written. -/
theorem loadBasePlusOffset : Obligations.LoadBasePlusOffset :=
  ⟨fun _ w hlegal hop => decode_opLDR hlegal w hop, fun d base off s =>
    ⟨_, exec_ldr d base off s, loadFrom_reg_same d _, loadFrom_cond d _ (.refl s), loadFrom_cellsKept d _,
      loadFrom_env d _, loadFrom_of_ne d, loadFrom_frame d _ (.refl s)⟩⟩

/-- Settles O38: LEA writes the address itself, as an arithmetic instruction writes its result. -/
theorem loadEffectiveAddress : Obligations.LoadEffectiveAddress :=
  ⟨fun _ w hlegal hop => decode_opLEA hlegal w hop, fun d off s =>
    ⟨_, exec_lea d off s, writeResult_reg_same d _ s, writeResult_frame d _ s⟩⟩

end Sys2Proof.Machine
end

section
/-! PROOFS. The statements about the stores (spec/43_store.md). Each ends in one MemWrite of a register's value; STI makes
one MemRead before it, for the pointer. -/

namespace Sys2Proof.Machine

/-! ### Which cell each store writes (43_store.md R100 to R102) -/

theorem storeTarget_st (r : RegIdx) (off : BitVec 9) (s : State) :
    storeTarget (.st r off) s = some (s.pc + off.signExtend 16) :=
  congrArg some (pcRelative_eq_signExtend (by decide) (by decide) off s)

theorem storeTarget_sti {off : BitVec 9} {s p : State} {ea : Word} (h : memRead (s.pc + off.signExtend 16) s = (ea, p))
    (r : RegIdx) : storeTarget (.sti r off) s = some ea := by
  rw [← pcRelative_eq_signExtend (by decide) (by decide)] at h
  exact congrArg (fun read => some read.1) h

theorem storeTarget_str (r base : RegIdx) (off : BitVec 6) (s : State) :
    storeTarget (.str r base off) s = some (s.reg base + off.signExtend 16) :=
  congrArg some (baseRelative_eq_signExtend base off s)

/-! ### What each instruction does, as a whole state -/

theorem exec_st (r : RegIdx) (off : BitVec 9) (s : State) :
    exec (.st r off) s = .next (memWrite (s.pc + off.signExtend 16) (s.reg r) s) := by
  rw [← pcRelative_eq_signExtend (by decide) (by decide)]
  rfl

/-- The write starts from the state the pointer read leaves, and its value is the register before that read (R101). -/
theorem exec_sti {off : BitVec 9} {s p : State} {ea : Word} (h : memRead (s.pc + off.signExtend 16) s = (ea, p))
    (r : RegIdx) : exec (.sti r off) s = .next (memWrite ea (s.reg r) p) := by
  rw [← pcRelative_eq_signExtend (by decide) (by decide)] at h
  simp only [exec, execSti, h]

theorem exec_str (r base : RegIdx) (off : BitVec 6) (s : State) :
    exec (.str r base off) s = .next (memWrite (s.reg base + off.signExtend 16) (s.reg r) s) := by
  rw [← baseRelative_eq_signExtend]
  rfl

/-! ### What a store leaves unchanged (43_store.md R103) -/

theorem memWrite_frame (a v : Word) (s : State) :
    RegsKeptBut [] s (memWrite a v s) ∧ (memWrite a v s).cond = s.cond ∧ (memWrite a v s).pc = s.pc ∧
    (memWrite a v s).env = s.env ∧ ControlKept s (memWrite a v s) :=
  ⟨fun _ _ => rfl, rfl, rfl, rfl, rfl, rfl⟩

theorem TalkedOnly.of_memRead_eq {a v : Word} {s p : State} (h : memRead a s = (v, p)) : TalkedOnly s p := by
  have hread := TalkedOnly.of_memRead a s
  rwa [h] at hread

/-- A read before the store adds at most the keyboard cells to the cell stored to. -/
theorem TalkedOnly.memWrite_frame {s p : State} (h : TalkedOnly s p) (a v : Word) :
    CellsKeptBut [a, s.cfg.kbsrAddr, s.cfg.kbdrAddr] s (memWrite a v p) ∧ RegsKeptBut [] s (memWrite a v p) ∧
    (memWrite a v p).cond = s.cond ∧ (memWrite a v p).pc = s.pc ∧ ControlKept s (memWrite a v p) := by
  refine ⟨fun b hb => ?_, fun r _ => h.reg r, h.cond, h.pc, h.run, h.cfg⟩
  rw [memWrite_read_of_ne (List.ne_of_not_mem_cons hb), h.cellsKeptBut b (List.not_mem_of_not_mem_cons hb)]

/-! ### The three statements -/

/-- Settles O39: ST is a MemWrite to its PC-relative address. -/
theorem storePcRelative : Obligations.StorePcRelative :=
  ⟨fun _ w hlegal hop => decode_opST hlegal w hop, fun r off s =>
    ⟨_, exec_st r off s, memWrite_read_same _ _ s, memWrite_cellsKeptBut _ _ s, storeTarget_st r off s,
      memWrite_frame _ _ s⟩⟩

/-- Settles O40: STI is a MemWrite to its pointer, in the state `p` the pointer read leaves, which is `s` itself when that
read was off the status address. -/
theorem storeIndirect : Obligations.StoreIndirect := by
  refine ⟨fun c w hlegal hop => decode_opSTI hlegal w hop, fun r off s p ea hptr => ?_⟩
  refine ⟨_, exec_sti hptr r, memWrite_read_same _ _ p, memWrite_cellsKeptBut _ _ p, storeTarget_sti hptr r, rfl,
    fun haddr => ?_, (TalkedOnly.of_memRead_eq hptr).memWrite_frame _ _⟩
  obtain rfl : s = p := congrArg Prod.snd ((memRead_of_ne haddr).symm.trans hptr)
  exact ⟨memWrite_cellsKeptBut _ _ s, rfl⟩

/-- Settles O41: STR is a MemWrite to its base-relative address. -/
theorem storeBasePlusOffset : Obligations.StoreBasePlusOffset :=
  ⟨fun _ w hlegal hop => decode_opSTR hlegal w hop, fun r base off s =>
    ⟨_, exec_str r base off s, memWrite_read_same _ _ s, memWrite_cellsKeptBut _ _ s, storeTarget_str r base off s,
      memWrite_frame _ _ s⟩⟩

end Sys2Proof.Machine
end

section
/-! PROOFS. The statements about the traps (spec/44_trap.md) but for PUTS and PUTSP: which service a vector selects,
what every TRAP does to R7, and what GETC, OUT, IN, HALT and the undefined vectors do. -/

namespace Sys2Proof.Machine

/-! ### The vector selects the service (44_trap.md R111) -/

theorem trapUndefined_wellFormed {vec : Byte} (h : vec.toNat < 0x20 ∨ 0x25 < vec.toNat) (u : BitVec 4) :
    (Instr.trapUndefined u vec).wellFormed = true := by
  have hvec : vec ∉ Config.serviceVectors := by
    intro hmem
    simp only [Config.serviceVectors, List.mem_cons, List.not_mem_nil, or_false] at hmem
    obtain rfl | rfl | rfl | rfl | rfl | rfl := hmem <;> exact absurd h (by decide)
  simpa [Instr.wellFormed] using hvec

theorem decodeTrap_of_undefined_vector {w : Word}
    (h : (w.extractLsb' 0 8).toNat < 0x20 ∨ 0x25 < (w.extractLsb' 0 8).toNat) :
    decodeTrap w = .trapUndefined (w.extractLsb' 8 4) (w.extractLsb' 0 8) := by
  have hdecode := decodeTrap_undefined (op := fieldOpcode w) _ (trapUndefined_wellFormed h (w.extractLsb' 8 4))
  have hw : fieldOpcode w ++ w.extractLsb' 8 4 ++ w.extractLsb' 0 8 = w := fields_trap rfl
  rwa [hw] at hdecode

/-- Settles O42: each vector's own arm of `decodeTrap`. -/
theorem trapDispatchesOnItsVector : Obligations.TrapDispatchesOnItsVector := by
  intro c w hlegal hop
  rw [decode_opTRAP hlegal w hop]
  refine ⟨?_, ?_, ?_, ?_, ?_, ?_, fun h => congrArg _ (decodeTrap_of_undefined_vector h)⟩
  all_goals
    intro h
    simp only [decodeTrap, fieldTrapVect, h]
    rfl

/-! ### What every TRAP leaves: the incremented PC in R7 (44_trap.md R110, R119) -/

section
variable {s t : State}

theorem TalkedOnly.trapEntry_reg_seven (h : TalkedOnly (trapEntry s) t) : t.reg 7#3 = s.pc :=
  (h.reg 7#3).trans (Machine.trapEntry_reg_seven s)

theorem TalkedOnly.trapEntry_regsKept (h : TalkedOnly (trapEntry s) t) : RegsKeptBut [7] s t := fun r hr =>
  (h.reg r).trans (trapEntry_reg_of_ne s (List.ne_of_not_mem_cons hr))

end

theorem writesPc_of_isTrap {i : Instr} (h : isTrap i = true) : writesPc i = false := by
  cases i
  case getc | out | puts | inp | putsp | halt | trapUndefined => rfl
  case add | addi | and | andi | not | br | jmp | jsr | jsrr | ld | ldi | ldr | lea | st | sti | str | rti | res =>
    cases h

theorem exec_trap_reg_seven {i : Instr} {s t : State} (hi : isTrap i = true) (h : exec i s = .next t) :
    t.reg 7#3 = s.pc := by
  cases i
  case getc =>
    obtain ⟨b, u, -, htalk, rfl⟩ := execGetc_next h
    exact (writeResult_reg_of_ne _ _ _ (by decide)).trans htalk.trapEntry_reg_seven
  case inp =>
    obtain ⟨b, u, htalk, rfl⟩ := execInp_next h
    exact (writeResult_reg_of_ne _ _ _ (by decide)).trans htalk.trapEntry_reg_seven
  case out =>
    cases h
    exact trapEntry_reg_seven s
  case puts => exact (execPuts_next h).trapEntry_reg_seven
  case putsp => exact (execPutsp_next h).trapEntry_reg_seven
  case halt =>
    cases h
    exact (TalkedOnly.of_charOutAll _ _).trapEntry_reg_seven
  case trapUndefined =>
    cases h
    exact trapEntry_reg_seven s
  case add | addi | and | andi | not | br | jmp | jsr | jsrr | ld | ldi | ldr | lea | st | sti | str | rti | res =>
    cases hi

/-- Settles O43: R7 from the trap's entry; `pc` and the other registers by what is known of every instruction. -/
theorem everyTrapSavesThePcInRSeven : Obligations.EveryTrapSavesThePcInRSeven := fun i s t hi h =>
  ⟨exec_trap_reg_seven hi h, exec_pc_eq (writesPc_of_isTrap hi) h, registersWrittenAsListed i s t h⟩

/-! ### GETC and IN: a byte in R0 (44_trap.md R112, R115) -/

theorem zext8_ne_zero {b : Byte} (h : b ≠ 0#8) : zext8 b ≠ 0#16 := by
  rw [zext8]
  bv_omega

theorem condFor_zext8_of_ne (c : Config) {b : Byte} (h : b ≠ 0#8) : condFor c (zext8 b) = c.flPos := by
  have hsign : (zext8 b).getLsbD 15 = false := by simp [zext8]
  rw [condFor, if_neg (zext8_ne_zero h), hsign]
  rfl

/-- What GETC and IN leave once they have talked: the byte in R0 with its flag, the incremented PC in R7. -/
theorem byteResult_frame {s u : State} (h : TalkedOnly (trapEntry s) u) (hmem : u.mem = s.mem) (b : Byte) :
    (writeResult 0#3 (zext8 b) u).reg 0#3 = b.setWidth 16 ∧ (writeResult 0#3 (zext8 b) u).reg 7#3 = s.pc ∧
    (b = 0#8 → (writeResult 0#3 (zext8 b) u).cond = s.cfg.flZro) ∧
    (b ≠ 0#8 → (writeResult 0#3 (zext8 b) u).cond = s.cfg.flPos) ∧
    RegsKeptBut [0, 7] s (writeResult 0#3 (zext8 b) u) ∧ (writeResult 0#3 (zext8 b) u).pc = s.pc ∧
    CellsKept s (writeResult 0#3 (zext8 b) u) ∧ ControlKept s (writeResult 0#3 (zext8 b) u) := by
  have hcfg : u.cfg = s.cfg := h.cfg
  refine ⟨writeResult_reg_same _ _ _, ?_, ?_, fun hb => ?_, fun r hr => ?_, h.pc, fun a => ?_, h.run, hcfg⟩
  · rw [writeResult_reg_of_ne _ _ _ (by decide), h.trapEntry_reg_seven]
  · rintro rfl
    rw [writeResult_cond, hcfg]
    rfl
  · rw [writeResult_cond, condFor_zext8_of_ne _ hb, hcfg]
  · exact (writeResult_reg_of_ne _ _ _ (List.ne_of_not_mem_cons hr)).trans
      (h.trapEntry_regsKept r (List.not_mem_of_not_mem_cons hr))
  · rw [writeResult_mem, hmem]

/-- Settles O44: `charIn_listed` says what the read leaves, `byteResult_frame` what the result does. -/
theorem getcReadsOneByte : Obligations.GetcReadsOneByte := by
  refine ⟨fun c w hlegal hop => ?_, fun u b rest s _ hlisted => ?_⟩
  · obtain ⟨hgetc, -⟩ := trapDispatchesOnItsVector c w hlegal hop
    exact hgetc
  · have hin := charIn_listed (trapEntry s) hlisted
    obtain ⟨hzero, hseven, hflagZero, hflagPos, hframe⟩ := byteResult_frame (TalkedOnly.of_charIn hin) rfl b
    exact ⟨_, execGetc_of_charIn_some hin, hzero, hseven, hflagZero, hflagPos, rfl, hframe⟩

/-- Settles O46: as GETC, from the state `prompted`, and with the echo. -/
theorem inPromptsReadsAndEchoes : Obligations.InPromptsReadsAndEchoes := by
  intro u b rest s _ hlisted
  have hin := charIn_listed (prompted s) (b := b) (rest := rest) (by rw [prompted, charOutAll_eq]; exact hlisted)
  have htalk := (TalkedOnly.of_charOutAll s.cfg.inPrompt (trapEntry s)).trans
    ((TalkedOnly.of_charIn hin).trans (.of_charOut (zext8 b) _))
  obtain ⟨hzero, hseven, hflagZero, hflagPos, hframe⟩ := byteResult_frame htalk (charOutAll_mem _ (trapEntry s)) b
  refine ⟨_, execInp_of_charIn_some hin, hzero, hseven, hflagZero, hflagPos, ?_, hframe⟩
  rw [prompted, charOutAll_eq]
  rfl

/-! ### OUT, HALT and the undefined vectors (44_trap.md R113, R117, R118) -/

/-- Settles O45: OUT is the trap's entry and one CharOut. -/
theorem outWritesRegisterZero : Obligations.OutWritesRegisterZero := by
  refine ⟨fun c w hlegal hop => ?_, fun u s => ?_⟩
  · obtain ⟨-, hout, -⟩ := trapDispatchesOnItsVector c w hlegal hop
    exact hout
  · have htalk := TalkedOnly.of_charOut (s.reg 0#3) (trapEntry s)
    exact ⟨_, rfl, rfl, htalk.trapEntry_reg_seven, htalk.trapEntry_regsKept, rfl, rfl, fun _ => rfl, rfl, rfl⟩

/-- Settles O52: HALT is the trap's entry, its message and the write of the run state, after which no step is taken. -/
theorem haltStopsTheRun : Obligations.HaltStopsTheRun := by
  intro u s
  have htalk := TalkedOnly.of_charOutAll s.cfg.haltMessage (trapEntry s)
  refine ⟨_, rfl, rfl, htalk.trapEntry_reg_seven, htalk.pc, ?_, htalk.cfg, htalk.trapEntry_regsKept, htalk.cond,
    fun a => ?_, step_of_ne_running nofun⟩
  · rw [charOutAll_eq]
    rfl
  · rw [State.setRun_mem, charOutAll_mem, trapEntry_mem]

/-- Settles O53: the trap's entry and the write of the run state, after which no step is taken. -/
theorem undefinedVectorIsAFatalStop : Obligations.UndefinedVectorIsAFatalStop := by
  refine ⟨fun c w hlegal hop hvec => ?_, fun u vec s => ?_⟩
  · have hdecode := decodeTrap_of_undefined_vector hvec
    rw [decode_opTRAP hlegal w hop, ← hdecode]
    exact ⟨rfl, encode_decodeTrap hop⟩
  · have htalk := TalkedOnly.refl (trapEntry s)
    exact ⟨_, rfl, rfl, htalk.trapEntry_reg_seven, htalk.trapEntry_regsKept, rfl, rfl, fun _ => rfl, rfl, rfl,
      step_of_ne_running nofun⟩

end Sys2Proof.Machine
end

section
/-! PROOFS. PUTS and PUTSP (spec/44_trap.md R114, R116): their loops against the walks that say what the loops do, where
they end, and what they write. -/

namespace Sys2Proof.Machine

/-! ### A loop with enough fuel is a walk -/

theorem putsLoop_next_iff {n : Nat} {a : Word} {s t : State} :
    putsLoop n a s = .next t ↔ ∃ m ≤ n, PutsWalk m a s t := by
  constructor
  · intro h
    induction n generalizing a s with
    | zero => simp [putsLoop] at h
    | succ n ih =>
      simp only [putsLoop] at h
      split at h
      next hzero =>
        cases h
        exact ⟨1, by omega, .stop hzero⟩
      next hne =>
        obtain ⟨m, hm, hwalk⟩ := ih h
        exact ⟨m + 1, by omega, .more hne hwalk⟩
  · rintro ⟨m, hm, hwalk⟩
    induction hwalk generalizing n with
    | stop hzero =>
      obtain ⟨n, rfl⟩ := Nat.exists_eq_add_of_le' hm
      simp [putsLoop, hzero]
    | more hne _ ih =>
      obtain ⟨n, rfl⟩ := Nat.exists_eq_add_of_le' (Nat.one_le_of_lt hm)
      simpa [putsLoop, hne] using ih (by omega)

theorem putspLoop_next_iff {n : Nat} {a : Word} {s t : State} :
    putspLoop n a s = .next t ↔ ∃ m ≤ n, PutspWalk m a s t := by
  constructor
  · intro h
    induction n generalizing a s with
    | zero => simp [putspLoop] at h
    | succ n ih =>
      simp only [putspLoop] at h
      split at h
      next hlo =>
        cases h
        exact ⟨1, by omega, .stopLow hlo⟩
      next hlo =>
        split at h
        next hhi =>
          cases h
          exact ⟨1, by omega, .stopHigh hlo hhi⟩
        next hhi =>
          obtain ⟨m, hm, hwalk⟩ := ih h
          exact ⟨m + 1, by omega, .more hlo hhi hwalk⟩
  · rintro ⟨m, hm, hwalk⟩
    induction hwalk generalizing n with
    | stopLow hlo =>
      obtain ⟨n, rfl⟩ := Nat.exists_eq_add_of_le' hm
      simp [putspLoop, hlo]
    | stopHigh hlo hhi =>
      obtain ⟨n, rfl⟩ := Nat.exists_eq_add_of_le' hm
      simp [putspLoop, hlo, hhi, zext8]
    | more hlo hhi _ ih =>
      obtain ⟨n, rfl⟩ := Nat.exists_eq_add_of_le' (Nat.one_le_of_lt hm)
      simpa [putspLoop, hlo, hhi, zext8] using ih (by omega)

/-- Without an end the loop has only run out of fuel. -/
theorem putsLoop_next_or_notEnded (n : Nat) (a : Word) (s : State) :
    (∃ t, putsLoop n a s = .next t) ∨ ∃ reached, putsLoop n a s = .refused (.serviceNotEnded reached) := by
  induction n generalizing a s with
  | zero => exact .inr ⟨s, rfl⟩
  | succ n ih =>
    simp only [putsLoop]
    split
    · exact .inl ⟨_, rfl⟩
    · exact ih _ _

theorem PutsWalk.unique {m n : Nat} {a : Word} {s t u : State} (h : PutsWalk m a s t) (k : PutsWalk n a s u) :
    t = u := by
  have ht := putsLoop_next_iff.mpr ⟨m, Nat.le_max_left m n, h⟩
  have hu := putsLoop_next_iff.mpr ⟨n, Nat.le_max_right m n, k⟩
  simpa [ht] using hu

theorem PutspWalk.unique {m n : Nat} {a : Word} {s t u : State} (h : PutspWalk m a s t) (k : PutspWalk n a s u) :
    t = u := by
  have ht := putspLoop_next_iff.mpr ⟨m, Nat.le_max_left m n, h⟩
  have hu := putspLoop_next_iff.mpr ⟨n, Nat.le_max_right m n, k⟩
  simpa [ht] using hu

/-! ### PUTSP always ends: a poll leaves a zero byte in the status cell -/

/-- The value of the status cell in any configuration: with one address for both keyboard cells the key itself stands
there. -/
theorem memRead_status_value_of_some {s : State} {b : Byte} (hkey : (kbdPoll s).1 = some b) :
    (memRead s.cfg.kbsrAddr s).1 = if s.cfg.kbdrAddr = s.cfg.kbsrAddr then zext8 b else Config.keyReady := by
  simp [memRead_status, hkey, storePoll, Memory.read_write, zext8]

theorem memRead_status_zero_byte (s : State) :
    (memRead s.cfg.kbsrAddr s).1.extractLsb' 0 8 = 0#8 ∨ (memRead s.cfg.kbsrAddr s).1.extractLsb' 8 8 = 0#8 := by
  cases hpoll : (kbdPoll s).1 with
  | none =>
    rw [memRead_status_of_none hpoll]
    exact .inl rfl
  | some b =>
    rw [memRead_status_value_of_some hpoll]
    split
    · right
      ext j hj
      simp [zext8]
    · exact .inl rfl

theorem putspLoop_ends {n : Nat} {a : Word} {s : State} (hn : (s.cfg.kbsrAddr - a).toNat < n) :
    ∃ t, putspLoop n a s = .next t := by
  induction n generalizing a s with
  | zero => omega
  | succ n ih =>
    simp only [putspLoop]
    split
    next => exact ⟨_, rfl⟩
    next hlo =>
      split
      next => exact ⟨_, rfl⟩
      next hhi =>
        have ha : a ≠ s.cfg.kbsrAddr := by
          rintro rfl
          exact (memRead_status_zero_byte s).elim hlo hhi
        refine ih ?_
        simp only [charOut_cfg, memRead_cfg]
        bv_omega

theorem execPutsp_ends (s : State) : ∃ t, execPutsp s = .next t := putspLoop_ends (BitVec.isLt _)

theorem execPutsp_next_iff {s t : State} : execPutsp s = .next t ↔ ∃ n, PutspWalk n (s.reg 0#3) (trapEntry s) t := by
  constructor
  · intro h
    obtain ⟨n, -, hwalk⟩ := putspLoop_next_iff.mp h
    exact ⟨n, hwalk⟩
  · rintro ⟨n, hwalk⟩
    obtain ⟨u, hends⟩ := execPutsp_ends s
    obtain ⟨m, -, kwalk⟩ := putspLoop_next_iff.mp hends
    rw [hends, hwalk.unique kwalk]

/-! ### PUTS: where it ends -/

/-- A zero cell ends PUTS, unless a poll changes it before it is read. -/
theorem putsLoop_ends_of_zero_cell {n : Nat} {a z : Word} {s : State} (hz : s.mem.read z = 0)
    (hs : z ≠ s.cfg.kbsrAddr) (hd : z = s.cfg.kbdrAddr → (z - a).toNat ≤ (s.cfg.kbsrAddr - a).toNat)
    (hn : (z - a).toNat < n) : ∃ t, putsLoop n a s = .next t := by
  induction n generalizing a s with
  | zero => omega
  | succ n ih =>
    simp only [putsLoop]
    split
    next => exact ⟨_, rfl⟩
    next hne =>
      have haz : a ≠ z := by
        rintro rfl
        rw [memRead_of_ne hs] at hne
        exact hne hz
      refine ih ?_ (by simpa using hs) (fun hdata => ?_) (by bv_omega)
      · rw [charOut_mem]
        by_cases ha : a = s.cfg.kbsrAddr
        · rwa [memRead_read_of_ne a s hs fun hdata => ?_]
          have := hd hdata
          bv_omega
        · rwa [memRead_of_ne ha]
      · simp only [charOut_cfg, memRead_cfg] at hdata ⊢
        have := hd hdata
        bv_omega

/-! ### PUTS: the answers of the polls to come -/

/-- The answers that are settled: those listed, then those of the next draw. -/
def pollsToCome (e : Env) : List (Option Byte) :=
  e.kbdAnswers ++ (unlistedPolls e.draws).1 :: (unlistedPolls e.draws).2

/-- A poll with this answer ends PUTS: `none` at once, since it clears the status cell; the key 0 as soon as the data
cell is read, which it clears. -/
abbrev EndsPuts (k : Option Byte) : Prop := k = none ∨ k = some 0#8

theorem putsBound_eq (s : State) : putsBound s = (pollsToCome s.env).length + 1 := by
  simp only [putsBound, pollsToCome, List.length_append, List.length_cons]
  omega

/-- A poll uses up the first of the answers to come. -/
theorem pollsToCome_kbdPoll {k : Option Byte} {ks : List (Option Byte)} {s : State}
    (h : k :: ks <+: pollsToCome s.env) : (kbdPoll s).1 = k ∧ ks <+: pollsToCome (kbdPoll s).2.env := by
  unfold pollsToCome at h
  cases hlisted : s.env.kbdAnswers with
  | nil =>
    rw [hlisted, List.nil_append, List.cons_prefix_cons] at h
    obtain ⟨rfl, hks⟩ := h
    simp only [kbdPoll, hlisted]
    exact ⟨trivial, hks.trans (List.prefix_append _ _)⟩
  | cons k' rest =>
    rw [hlisted, List.cons_append, List.cons_prefix_cons] at h
    obtain ⟨rfl, hks⟩ := h
    rw [kbdPoll_listed s hlisted]
    exact ⟨rfl, hks⟩

/-- The key 0 in the data cell is read before the next poll. -/
theorem putsLoop_ends_of_key_zero {n : Nat} {s : State} (hkey : (kbdPoll s).1 = some 0#8)
    (hne : (memRead s.cfg.kbsrAddr s).1 ≠ 0) (v : Word) (hn : 65535 ≤ n) :
    ∃ t, putsLoop n (s.cfg.kbsrAddr + 1) (charOut v (memRead s.cfg.kbsrAddr s).2) = .next t := by
  have htwo : s.cfg.kbdrAddr ≠ s.cfg.kbsrAddr := by
    intro hone
    rw [memRead_status_value_of_some hkey, if_pos hone] at hne
    exact hne rfl
  refine putsLoop_ends_of_zero_cell (z := s.cfg.kbdrAddr) ?_ ?_ ?_ ?_
  · rw [charOut_mem, memRead_status_read_kbdr_of_some hkey]
    rfl
  · simpa using htwo
  · simp only [charOut_cfg, memRead_cfg]
    bv_omega
  · bv_omega

/-- The status cell is met once a pass, and each time one answer is used up, until the one that ends PUTS is. -/
theorem putsLoop_ends_of_poll {n : Nat} {a : Word} {s : State} {ks : List (Option Byte)}
    (hks : ks <+: pollsToCome s.env) (hend : ∃ k ∈ ks, EndsPuts k)
    (hn : 65536 * ks.length + (s.cfg.kbsrAddr - a).toNat ≤ n) : ∃ t, putsLoop n a s = .next t := by
  induction n generalizing a s ks with
  | zero =>
    obtain ⟨k, hk, -⟩ := hend
    have := List.length_pos_of_mem hk
    omega
  | succ n ih =>
    simp only [putsLoop]
    split
    next => exact ⟨_, rfl⟩
    next hne =>
      by_cases ha : a = s.cfg.kbsrAddr
      · subst ha
        cases ks with
        | nil => simp at hend
        | cons k ks =>
          obtain ⟨hpoll, hrest⟩ := pollsToCome_kbdPoll hks
          rw [List.length_cons] at hn
          obtain rfl | rfl | hlater : k = none ∨ k = some 0#8 ∨ ∃ k ∈ ks, EndsPuts k := by
            simpa [or_assoc] using hend
          · exact absurd (memRead_status_of_none hpoll) hne
          · exact putsLoop_ends_of_key_zero hpoll hne _ (by omega)
          · refine ih (ks := ks) ?_ hlater ?_
            · simpa [pollsToCome, memRead_status_env] using hrest
            · simp only [charOut_cfg, memRead_cfg]
              bv_omega
      · rw [memRead_of_ne ha]
        refine ih hks hend ?_
        simp only [charOut_cfg]
        bv_omega

/-! ### PUTS: where it never ends -/

/-- Every poll to come finds a key other than 0. -/
structure KeysOnly (e : Env) : Prop where
  listed : ∀ k ∈ e.kbdAnswers, ¬EndsPuts k
  drawn : keysForever e.draws = true

theorem keysOnly_of_not_endsPuts {e : Env} (h : ¬∃ k ∈ pollsToCome e, EndsPuts k) : KeysOnly e where
  listed k hk hend := h ⟨k, List.mem_append_left _ hk, hend⟩
  drawn := by
    by_contra hdrawn
    obtain ⟨k, hk, hend⟩ := unlistedPolls_last (Bool.not_eq_true _ ▸ hdrawn)
    exact h ⟨k, List.mem_append_right _ hk, hend⟩

/-- The next poll finds a key other than 0, and so do those after it. -/
theorem KeysOnly.after_kbdPoll {s : State} (h : KeysOnly s.env) :
    (∃ b, b ≠ 0#8 ∧ (kbdPoll s).1 = some b) ∧ KeysOnly (kbdPoll s).2.env := by
  cases hlisted : s.env.kbdAnswers with
  | nil =>
    obtain ⟨b, hb, hdraw⟩ := unlistedPolls_forever h.drawn
    simp only [kbdPoll, hlisted, hdraw]
    exact ⟨⟨b, hb, rfl⟩, nofun, keysForever_succ h.drawn⟩
  | cons k rest =>
    rw [kbdPoll_listed s hlisted]
    have hk : ¬EndsPuts k := h.listed k (hlisted ▸ .head _)
    refine ⟨?_, fun k' hk' => h.listed k' (hlisted ▸ .tail _ hk'), h.drawn⟩
    cases k with
    | none => exact absurd (.inl rfl) hk
    | some b => exact ⟨b, fun hb => hk (.inr (congrArg some hb)), rfl⟩

/-- PUTS at `a` never ends: only the data cell may be zero, and then a poll comes before it is read. -/
structure PutsForever (a : Word) (s : State) : Prop where
  keys : KeysOnly s.env
  cells : ∀ z, z ≠ s.cfg.kbsrAddr → z ≠ s.cfg.kbdrAddr → s.mem.read z ≠ 0
  data : s.mem.read s.cfg.kbdrAddr ≠ 0 ∨ (s.cfg.kbsrAddr - a).toNat ≤ (s.cfg.kbdrAddr - a).toNat

/-- One turn of the loop: no zero is read, and nothing comes nearer to an end. -/
theorem PutsForever.after_memRead {a : Word} {s : State} (h : PutsForever a s) (v : Word) :
    (memRead a s).1 ≠ 0 ∧ PutsForever (a + 1) (charOut v (memRead a s).2) := by
  by_cases ha : a = s.cfg.kbsrAddr
  · subst ha
    obtain ⟨⟨b, hb, hpoll⟩, hkeys⟩ := h.keys.after_kbdPoll
    refine ⟨?_, ⟨?_, ?_⟩, fun z hs hd => ?_, .inl ?_⟩
    · rw [memRead_status_value_of_some hpoll]
      split
      · exact zext8_ne_zero hb
      · decide
    · simpa [memRead_status_env] using hkeys.listed
    · simpa [memRead_status_env] using hkeys.drawn
    · simp only [charOut_cfg, memRead_cfg] at hs hd
      rw [charOut_mem, memRead_read_of_ne _ s hs hd]
      exact h.cells z hs hd
    · rw [charOut_mem, charOut_cfg, memRead_cfg, memRead_status_read_kbdr_of_some hpoll]
      exact zext8_ne_zero hb
  · rw [memRead_of_ne ha]
    refine ⟨?_, ⟨h.keys.listed, h.keys.drawn⟩, h.cells, ?_⟩
    · by_cases hd : a = s.cfg.kbdrAddr
      · subst hd
        exact h.data.resolve_right (by bv_omega)
      · exact h.cells a ha hd
    · obtain hdata | hfirst := h.data
      · exact .inl hdata
      · right
        simp only [charOut_cfg]
        bv_omega

theorem PutsWalk.not_forever {n : Nat} {a : Word} {s t : State} (h : PutsWalk n a s t) : ¬PutsForever a s := by
  induction h with
  | stop hzero => exact fun hforever => (hforever.after_memRead 0).1 hzero
  | more _ _ ih => exact fun hforever => ih (hforever.after_memRead _).2

/-! ### PUTS completes exactly where its loop ends -/

theorem execPuts_eq (s : State) : execPuts s = putsLoop (passReads * putsBound s) (s.reg 0#3) (trapEntry s) :=
  putsPasses_eq _ _ _

theorem passReads_le (s : State) : 65536 ≤ passReads * putsBound s := by
  simp only [passReads, putsBound]
  omega

theorem execPuts_ends_of_zero_cell {s : State} {z : Word} (hz : s.mem.read z = 0) (hs : z ≠ s.cfg.kbsrAddr)
    (hd : z = s.cfg.kbdrAddr → (z - s.reg 0#3).toNat ≤ (s.cfg.kbsrAddr - s.reg 0#3).toNat) :
    ∃ t, execPuts s = .next t := by
  rw [execPuts_eq]
  exact putsLoop_ends_of_zero_cell (s := trapEntry s) hz hs hd (by have := passReads_le s; bv_omega)

theorem execPuts_ends_of_poll {s : State} (h : ∃ k ∈ pollsToCome s.env, EndsPuts k) : ∃ t, execPuts s = .next t := by
  rw [execPuts_eq]
  refine putsLoop_ends_of_poll (s := trapEntry s) List.prefix_rfl h ?_
  simp only [putsBound_eq, passReads, trapEntry_env]
  bv_omega

/-- If no cell and no answer to come ends PUTS within `putsBound`, nothing ever does. -/
theorem execPuts_ends_or_forever (s : State) : (∃ t, execPuts s = .next t) ∨ PutsForever (s.reg 0#3) (trapEntry s) := by
  rw [or_iff_not_imp_left]
  intro hnot
  refine ⟨keysOnly_of_not_endsPuts fun h => hnot (execPuts_ends_of_poll h),
    fun z hs hd hz => hnot (execPuts_ends_of_zero_cell hz hs fun hdata => absurd hdata hd), ?_⟩
  rw [or_iff_not_imp_right]
  intro hfirst hz
  have hs : s.cfg.kbdrAddr ≠ s.cfg.kbsrAddr := fun hone => hfirst (by simp [hone])
  exact hnot (execPuts_ends_of_zero_cell hz hs fun _ => Nat.le_of_not_le hfirst)

theorem execPuts_next_iff {s t : State} : execPuts s = .next t ↔ ∃ n, PutsWalk n (s.reg 0#3) (trapEntry s) t := by
  constructor
  · intro h
    obtain ⟨n, -, hwalk⟩ := putsLoop_next_iff.mp ((execPuts_eq s).symm.trans h)
    exact ⟨n, hwalk⟩
  · rintro ⟨n, hwalk⟩
    obtain ⟨u, hends⟩ := (execPuts_ends_or_forever s).resolve_right hwalk.not_forever
    obtain ⟨m, -, kwalk⟩ := putsLoop_next_iff.mp ((execPuts_eq s).symm.trans hends)
    rw [hends, hwalk.unique kwalk]

theorem execPuts_next_or_notEnded (s : State) :
    (∃ t, execPuts s = .next t) ∨ ∃ reached, execPuts s = .refused (.serviceNotEnded reached) := by
  rw [execPuts_eq]
  exact putsLoop_next_or_notEnded _ _ _

/-! ### Both services, over any memory -/

/-- Settles O48: `putsBound` is enough for every PUTS that ends (`execPuts_next_iff`), and one pass for every PUTSP
(`execPutsp_next_iff`). -/
theorem stringServicesFollowTheirLoops : Obligations.StringServicesFollowTheirLoops := fun _ s =>
  ⟨fun _ => execPuts_next_iff, fun _ => execPutsp_next_iff, execPuts_next_or_notEnded s, execPutsp_ends s⟩

/-- What a service may leave changed that only talks: R7, the environment and the keyboard cells. -/
theorem TalkedOnly.trapEntry_frame {s t : State} (h : TalkedOnly (trapEntry s) t) :
    t.reg 7#3 = s.pc ∧ RegsKeptBut [7] s t ∧ t.cond = s.cond ∧ t.pc = s.pc ∧
    CellsKeptBut [s.cfg.kbsrAddr, s.cfg.kbdrAddr] s t ∧ ControlKept s t :=
  ⟨h.trapEntry_reg_seven, h.trapEntry_regsKept, h.cond, h.pc, h.cellsKeptBut, h.run, h.cfg⟩

/-- Settles O49: the zero cell ends PUTS, the status cell at the latest PUTSP; the frame is that of talking only. -/
theorem stringServicesEndAtAnyZeroCell : Obligations.StringServicesEndAtAnyZeroCell := by
  intro u s z hs hd hz
  obtain ⟨t, ht⟩ := execPuts_ends_of_zero_cell hz hs fun hdata => absurd hdata hd
  obtain ⟨t', ht'⟩ := execPutsp_ends s
  exact ⟨⟨t, ht, (execPuts_next ht).trapEntry_frame⟩, ⟨t', ht', (execPutsp_next ht').trapEntry_frame⟩⟩

/-! ### Strings off the status cell -/

theorem CellsAt.of_eq {s t : State} {a : Word} {cells : List Word} (h : CellsAt s a cells) (hmem : t.mem = s.mem)
    (hcfg : t.cfg = s.cfg) : CellsAt t a cells := by
  induction cells generalizing a with
  | nil => trivial
  | cons c rest ih =>
    obtain ⟨hs, hread, hrest⟩ := h
    exact ⟨hcfg ▸ hs, hmem ▸ hread, ih hrest⟩

theorem putsLoop_of_cellsAt {a : Word} {s : State} {cells : List Word} (h : CellsAt s a cells) (hz : 0 ∈ cells) :
    putsLoop cells.length a s = .next (charOutAll (cells.takeWhile (· != 0)) s) := by
  induction cells generalizing a s with
  | nil => cases hz
  | cons c rest ih =>
    obtain ⟨hs, rfl, hrest⟩ := h
    simp only [List.length_cons, putsLoop, memRead_of_ne hs]
    split
    next hc =>
      rw [List.takeWhile_cons_of_neg (by simpa using hc)]
      rfl
    next hc =>
      rw [List.takeWhile_cons_of_pos (by simpa using hc)]
      exact ih (hrest.of_eq rfl rfl) ((List.mem_cons.mp hz).resolve_left (Ne.symm hc))

theorem putspLoop_of_cellsAt {a : Word} {s : State} {cells : List Word} (h : CellsAt s a cells)
    (hz : 0 ∈ packedBytes cells) :
    putspLoop cells.length a s = .next (charOutAll (((packedBytes cells).takeWhile (· != 0)).map zext8) s) := by
  induction cells generalizing a s with
  | nil => cases hz
  | cons c rest ih =>
    obtain ⟨hs, rfl, hrest⟩ := h
    simp only [List.length_cons, putspLoop, memRead_of_ne hs, packedBytes]
    split
    next hlo =>
      rw [List.takeWhile_cons_of_neg (by simpa using hlo)]
      rfl
    next hlo =>
      rw [List.takeWhile_cons_of_pos (by simpa using hlo)]
      split
      next hhi =>
        rw [List.takeWhile_cons_of_neg (by simpa using hhi)]
        rfl
      next hhi =>
        rw [List.takeWhile_cons_of_pos (by simpa using hhi)]
        have hzrest := List.mem_of_ne_of_mem (Ne.symm hhi) (List.mem_of_ne_of_mem (Ne.symm hlo) hz)
        exact ih (hrest.of_eq rfl rfl) hzrest

theorem execPuts_of_putsLoop {n : Nat} {s t : State} (h : putsLoop n (s.reg 0#3) (trapEntry s) = .next t) :
    execPuts s = .next t := by
  obtain ⟨m, -, hwalk⟩ := putsLoop_next_iff.mp h
  exact execPuts_next_iff.mpr ⟨m, hwalk⟩

theorem execPutsp_of_putspLoop {n : Nat} {s t : State} (h : putspLoop n (s.reg 0#3) (trapEntry s) = .next t) :
    execPutsp s = .next t := by
  obtain ⟨m, -, hwalk⟩ := putspLoop_next_iff.mp h
  exact execPutsp_next_iff.mpr ⟨m, hwalk⟩

/-- Settles O50: the loop as far as the first zero cell (`putsLoop_of_cellsAt`). -/
theorem putsWritesTheStringBeforeTheFirstZeroCell : Obligations.PutsWritesTheStringBeforeTheFirstZeroCell := by
  intro u s cells hcells hz
  have hloop := putsLoop_of_cellsAt (s := trapEntry s) (hcells.of_eq rfl rfl) hz
  rw [charOutAll_eq] at hloop
  exact execPuts_of_putsLoop hloop

/-- Settles O51: the loop as far as the first zero byte (`putspLoop_of_cellsAt`). -/
theorem putspWritesTheBytesBeforeTheFirstZeroByte : Obligations.PutspWritesTheBytesBeforeTheFirstZeroByte := by
  intro u s cells hcells hz
  have hloop := putspLoop_of_cellsAt (s := trapEntry s) (hcells.of_eq rfl rfl) hz
  rw [charOutAll_eq] at hloop
  exact execPutsp_of_putspLoop hloop

end Sys2Proof.Machine
end

section
/-! PROOFS. The statement about the reserved opcodes (spec/45_reserved.md): RTI and RES do nothing but raise the fatal
stop, so one lemma about `raiseFatal` says what both of them do. -/

namespace Sys2Proof.Machine

/-- A fatal stop writes the run state alone, and no step leaves it (60_exceptions.md R142). -/
theorem raiseFatal_stops (cause : FatalCause) (info : Word) (s : State) :
    (raiseFatal cause info s).run = .fatal cause info ∧ RegsKeptBut [] s (raiseFatal cause info s) ∧
    (raiseFatal cause info s).pc = s.pc ∧ (raiseFatal cause info s).cond = s.cond ∧
    CellsKept s (raiseFatal cause info s) ∧ (raiseFatal cause info s).env = s.env ∧
    (raiseFatal cause info s).cfg = s.cfg ∧ step (raiseFatal cause info s) = .next (raiseFatal cause info s) :=
  ⟨rfl, fun _ _ => rfl, rfl, rfl, fun _ => rfl, rfl, rfl, step_of_ne_running nofun⟩

/-- Settles O54: the opcode number and the twelve bits under it are the whole word (`fields_reserved`), and both
instructions are `raiseFatal` with that word. -/
theorem reservedOpcodesAreFatalStops : Obligations.ReservedOpcodesAreFatalStops := by
  refine ⟨fun c w hlegal => ⟨fun hop => ?_, fun hop => ?_⟩, fun u s => ⟨?_, ?_⟩⟩
  · exact ⟨decode_opRTI hlegal w hop, fields_reserved hop⟩
  · exact ⟨decode_opRES hlegal w hop, fields_reserved hop⟩
  · exact ⟨_, rfl, raiseFatal_stops .illegalOpcode (encode s.cfg (.rti u)) s⟩
  · exact ⟨_, rfl, raiseFatal_stops .illegalOpcode (encode s.cfg (.res u)) s⟩

end Sys2Proof.Machine
end

section
/-! PROOFS. The statement that a fatal stop is precise (spec/60_exceptions.md section 2): one lemma for every instruction
that `fatalStop` names, of which the reserved opcodes and the undefined vectors are cases. -/

namespace Sys2Proof.Machine

theorem encode_of_decode_ok {c : Config} {w : Word} {i : Instr} (hlegal : c.Legal) (h : decode c w = .ok i) :
    encode c i = w := by
  obtain ⟨j, hj, -, hword⟩ := everyWordDecodesAndEncodesBack c w hlegal
  cases h.symm.trans hj
  exact hword

theorem fatalStop_some_pc {i : Instr} {s u : State} {cause : FatalCause} (h : fatalStop i s = some (u, cause)) :
    u.pc = s.pc := by
  cases i
  case trapUndefined | rti | res =>
    cases h
    rfl
  all_goals cases h

/-- A step into a fatal stop records the word it fetched, which is what its instruction encodes to; `pc` is the
incremented one, so that it names the instruction; and no step is taken after it (60_exceptions.md R142, R143). -/
theorem step_of_fatalStop_some {s u : State} {i : Instr} {cause : FatalCause} (hlegal : s.cfg.Legal)
    (hrun : s.run = .running) (hdecode : decode s.cfg (memRead s.pc s).1 = .ok i)
    (hstop : fatalStop i ((memRead s.pc s).2.setPc (s.pc + 1)) = some (u, cause)) :
    ∃ t, step s = .next t ∧ t = u.setRun (.fatal cause (memRead s.pc s).1) ∧ faultingAddress t = s.pc ∧
      step t = .next t := by
  refine ⟨_, ?_, rfl, ?_, step_of_ne_running nofun⟩
  · rw [stepFetchesIncrementsAndExecutes s i hrun hdecode, exec_of_fatalStop_some hstop, State.setPc_cfg, memRead_cfg,
      encode_of_decode_ok hlegal hdecode]
  · rw [faultingAddress, State.setRun_pc, fatalStop_some_pc hstop, State.setPc_pc, BitVec.add_sub_cancel]

/-- Settles O55: each word decodes to an instruction of `fatalStop`, of which `step_of_fatalStop_some` says the rest. -/
theorem fatalStopsArePrecise : Obligations.FatalStopsArePrecise := by
  rintro s _ hinv hrun rfl
  refine ⟨?_, fun hop hvec => ?_⟩
  · rintro (hop | hop)
    · exact step_of_fatalStop_some hinv.legal hrun (decode_opRTI hinv.legal _ hop) rfl
    · exact step_of_fatalStop_some hinv.legal hrun (decode_opRES hinv.legal _ hop) rfl
  · have hdecode := decode_opTRAP hinv.legal _ hop
    rw [decodeTrap_of_undefined_vector hvec] at hdecode
    exact step_of_fatalStop_some hinv.legal hrun hdecode rfl

end Sys2Proof.Machine
end

section
/-! PROOFS. The statements about the load of images (spec/70_reset_and_hazards.md section 2): an image is parsed back
into the words it was written from, its payload fills consecutive cells, and the launch starts the core on the memory
so loaded. -/

namespace Sys2Proof.Machine

/-! ### Images as words -/

/-- Big-endian writing and `word(i)` of R166 are inverse to each other. -/
@[simp] theorem imageWords_imageBytes (ws : List Word) : imageWords (imageBytes ws) = some ws := by
  induction ws with
  | nil => rfl
  | cons w ws ih =>
    have hw : w.extractLsb' 8 8 ++ w.extractLsb' 0 8 = w := BitVec.extractLsb'_append_extractLsb'
    simp [imageBytes, imageWords, ih, hw]

theorem imageWords_of_odd_length {bytes : List Byte} (h : bytes.length % 2 = 1) : imageWords bytes = none := by
  induction bytes using imageWords.induct with
  | case1 => cases h
  | case2 => rfl
  | case3 hi lo rest ih =>
    have hrest : rest.length % 2 = 1 := by
      rw [List.length_cons, List.length_cons] at h
      omega
    rw [imageWords, ih hrest, Option.map_none]

theorem parseImage_imageBytes (origin : Word) (payload : List Word) :
    parseImage (imageBytes (origin :: payload)) = .ok (origin, payload) := by
  rw [parseImage, imageWords_imageBytes]

theorem parseImage_of_odd_length {bytes : List Byte} (h : bytes.length % 2 = 1) :
    parseImage bytes = .error .oddLength := by
  rw [parseImage, imageWords_of_odd_length h]

/-! ### The cells of a payload -/

/-- The two ways to name the cell of a payload's word: counted from the whole payload, and from its tail. -/
theorem cellAddress_succ (a : Word) (k : Nat) : a + BitVec.ofNat 16 (k + 1) = a + 1 + BitVec.ofNat 16 k := by
  rw [Nat.add_comm, BitVec.ofNat_add]
  exact (BitVec.add_assoc a 1 _).symm

theorem loadCells_read_of_ne {a b : Word} {ws : List Word} (m : Memory)
    (h : ∀ k, k < ws.length → b ≠ a + BitVec.ofNat 16 k) : (loadCells a ws m).read b = m.read b := by
  induction ws generalizing a m with
  | nil => rfl
  | cons w ws ih =>
    have hhead : b ≠ a := by simpa using h 0 (Nat.succ_pos _)
    have htail : ∀ k, k < ws.length → b ≠ a + 1 + BitVec.ofNat 16 k := fun k hk =>
      cellAddress_succ a k ▸ h (k + 1) (Nat.succ_lt_succ hk)
    rw [loadCells, ih _ htail, Memory.read_write_of_ne m hhead]

/-- A payload that does not go round the whole memory leaves each word in its cell: no later word of it comes there. -/
theorem loadCells_read (a : Word) {ws : List Word} (m : Memory) (hlen : ws.length ≤ 65536) (k : Nat)
    (hk : k < ws.length) : (loadCells a ws m).read (a + BitVec.ofNat 16 k) = ws[k] := by
  induction ws generalizing a m k with
  | nil => cases hk
  | cons w ws ih =>
    rw [List.length_cons] at hlen
    cases k with
    | zero =>
      have hlater : ∀ j, j < ws.length → a ≠ a + 1 + BitVec.ofNat 16 j := fun j hj => by bv_omega
      rw [BitVec.add_zero, loadCells, loadCells_read_of_ne _ hlater, Memory.read_write_same]
      rfl
    | succ j =>
      rw [cellAddress_succ]
      exact ih (a + 1) (m.write a w) (by omega) j (Nat.lt_of_succ_lt_succ hk)

/-! ### The launch -/

theorem loadImages_imageBytes_cons {origin : Word} {payload : List Word} {rest : List (List Byte)} {m loaded : Memory}
    {origins : List Word} (h : loadImages rest (loadCells origin payload m) = .ok (origins, loaded)) :
    loadImages (imageBytes (origin :: payload) :: rest) m = .ok (origin :: origins, loaded) := by
  simp only [loadImages, parseImage_imageBytes, h]

/-- R163 for two images: their common origin, or the host's choice (D9). -/
theorem pcStartFor_two (c : Config) (choice o p : Word) :
    pcStartFor c choice [o, p] = if p = o then o else choice := by
  simp [pcStartFor]

/-- A launch that loads its images starts a reset core on the loaded memory (R162, R165). -/
theorem launch_of_loadImages_ok {c : Config} {images : List (List Byte)} {origins : List Word} {loaded : Memory}
    (choice : Word) (h : loadImages images ⟨[]⟩ = .ok (origins, loaded)) :
    ∃ s, launch c choice images = .ok s ∧ s.run = .running ∧ s.pc = pcStartFor c choice origins ∧ s.cond = c.flZro ∧
      (∀ r, s.reg r = 0) ∧ s.mem = loaded := by
  refine ⟨hostStart (hostSetPcStart (pcStartFor c choice origins) ((State.afterReset c).setMem loaded)),
    ?_, rfl, rfl, rfl, resetWith_reg c, rfl⟩
  rw [launch, State.afterReset, h]

theorem launch_of_parseImage_error {bytes : List Byte} {e : LaunchRefusal} (c : Config) (choice : Word)
    (h : parseImage bytes = .error e) : launch c choice [bytes] = .error e := by
  rw [launch, loadImages, h]

/-- Settles O10: the launched memory is `loadCells` of the payload over zero cells, whose cells `loadCells_read` and
`loadCells_read_of_ne` give. -/
theorem launchOfOneImageFillsItsCells : Obligations.LaunchOfOneImageFillsItsCells := by
  intro c choice origin payload hlen
  have hload : loadImages [imageBytes (origin :: payload)] ⟨[]⟩ = .ok ([origin], loadCells origin payload ⟨[]⟩) :=
    loadImages_imageBytes_cons rfl
  obtain ⟨s, hlaunch, hrun, hpc, hcond, hreg, hmem⟩ := launch_of_loadImages_ok (c := c) choice hload
  refine ⟨s, hlaunch, hrun, hpc, hcond, hreg, ?_, ?_⟩ <;> rw [hmem]
  · exact loadCells_read origin _ hlen
  · exact fun _ ha => loadCells_read_of_ne _ ha

/-- Settles O11: the later payload lies over the first, so a cell off the later one reads as the first load left it. -/
theorem launchOfTwoImagesLaterOneWins : Obligations.LaunchOfTwoImagesLaterOneWins := by
  intro c choice o p first later hfirst hlater
  have hload : loadImages [imageBytes (o :: first), imageBytes (p :: later)] ⟨[]⟩ =
      .ok ([o, p], loadCells p later (loadCells o first ⟨[]⟩)) :=
    loadImages_imageBytes_cons (loadImages_imageBytes_cons rfl)
  obtain ⟨s, hlaunch, hrun, hpc, hcond, hreg, hmem⟩ := launch_of_loadImages_ok (c := c) choice hload
  rw [pcStartFor_two] at hpc
  refine ⟨s, hlaunch, hrun, hcond, hreg, fun heq => by rw [hpc, if_pos heq], fun hne => by rw [hpc, if_neg hne], ?_,
    fun a ha => ?_⟩
  · rw [hmem]
    exact loadCells_read p _ hlater
  · have hunder : s.mem.read a = (loadCells o first ⟨[]⟩).read a := by rw [hmem, loadCells_read_of_ne _ ha]
    rw [hunder]
    refine ⟨?_, fun hoff => loadCells_read_of_ne _ hoff⟩
    rintro k hk rfl
    exact loadCells_read o _ hfirst k hk

/-- Settles O12: an odd length leaves a byte over, and the empty image is parsed into no word, so none is the origin. -/
theorem launchRefusesMalformedImages : Obligations.LaunchRefusesMalformedImages :=
  ⟨fun c choice _ hodd => launch_of_parseImage_error c choice (parseImage_of_odd_length hodd),
    fun c choice => launch_of_parseImage_error c choice rfl⟩

end Sys2Proof.Machine
end
